-- ==== Sys2Proof/Word.lean ====
section
/-! DEFINITION. The fixed widths of the block (R7, R55): command words, bytes, identifiers, PGNs, source addresses. -/

namespace Sys2Proof

/-- A word of the command port or of the response port (R55, R70). -/
abbrev Word := BitVec 32

/-- A payload byte (R51). -/
abbrev Byte := BitVec 8

/-- A 29-bit CAN identifier (R7, R86). -/
abbrev Ident := BitVec 29

/-- An 18-bit PGN (R7, R113). -/
abbrev Pgn := BitVec 18

/-- An 8-bit source address (R7, R17). -/
abbrev SourceAddr := BitVec 8

end Sys2Proof
end

