-- ==== Sys2Proof/Config.lean ====
section
/-! DEFINITION. What a build fixes: the parameters of R9 to R12 (I11), and the consumer's BOOL2_MAP (I12). Configuration is not state (R20). -/

namespace Sys2Proof

/-- The frame class that the registry gives a PGN (R11, R160). -/
inductive FrameClass where
  | unknown
  | single
  | fastPacket
deriving DecidableEq, Repr, Inhabited

/-- The parameters of a block instance. Each number is held as one less than the parameter, in a type with exactly as many
values as the range that the spec gives, so that every value is a legal parameter. -/
structure Config where
  /-- `FP_TIMEOUT_TICKS` less 1 (R9: range 1 to 65535). -/
  timeoutLessOne : Fin 65535
  /-- `FP_MAX_FRAMES` less 1 (R10: range 1 to 255). -/
  maxFramesLessOne : Fin 255
  /-- `FP_ENTRIES` less 1 (R12: range 1 to 256). -/
  entriesLessOne : Fin 256
  /-- `PGN_CLASS`, a total function of the whole 18-bit PGN (R11, R160). -/
  pgnClass : Pgn → FrameClass
  /-- `BOOL2_MAP`, the consumer's mapping of a "2→bool" field (R187, D32); `none` is a raw value that it does not map. -/
  bool2Map : BitVec 2 → Option Bool
deriving Inhabited

/-- `FP_TIMEOUT_TICKS` (R9). -/
def Config.fpTimeoutTicks (c : Config) : Nat := c.timeoutLessOne.val + 1

/-- `FP_MAX_FRAMES` (R10). -/
def Config.fpMaxFrames (c : Config) : Nat := c.maxFramesLessOne.val + 1

/-- `FP_ENTRIES` (R12). -/
def Config.fpEntries (c : Config) : Nat := c.entriesLessOne.val + 1

/-- The parameters of the block that is modelled: fixed, and nothing is known of them beyond their ranges. DESIGN CHOICE
(log entry 1), safe: what is proved holds of every build. -/
opaque Config.build : Config

end Sys2Proof
end

