-- ==== Sys2Proof/Syntax.lean ====
section
/-! DEFINITION. The instructions: one constructor for each row of spec/opcode_table.json. -/

namespace Sys2Proof

/-- The eight payload bytes `data[0..8)` that a FRAME or LOADI packet carries (R76, R77, R78). The bytes at an index of DLC
(LEN) or more are don't-care: they are carried here and no meaning reads them. -/
structure Payload where
  b0 : Byte
  b1 : Byte
  b2 : Byte
  b3 : Byte
  b4 : Byte
  b5 : Byte
  b6 : Byte
  b7 : Byte
deriving DecidableEq, Repr

/-- The rows of the opcode table. Operands have the width of their encoding field (R81), so an illegal operand value can be
written; `Instr.wellFormed` says which values are legal (R82). -/
inductive Instr where
  /-- IDDEC (R115). -/
  | iddec (id : Ident)
  /-- DISPATCH (R162). -/
  | dispatch (id : Ident) (dlc : BitVec 4) (data : Payload)
  /-- FPINGEST (R213). -/
  | fpingest (id : Ident) (dlc : BitVec 4) (data : Payload)
  /-- FPEVICT (R241). -/
  | fpevict (sa : SourceAddr)
  /-- FPFLUSH (R242). -/
  | fpflush
  /-- TICK (R243). -/
  | tick
  /-- BFLOADM (R141). -/
  | bfloadm
  /-- BFLOADI (R142). -/
  | bfloadi (len : BitVec 4) (data : Payload)
  /-- BFTAKE.U (R139). -/
  | bftakeU (n : BitVec 6)
  /-- BFTAKE.S (R140). -/
  | bftakeS (n : BitVec 6)
  /-- RESERVED_0x0 (R245). -/
  | reserved0
  /-- RESERVED_0xA (R245). -/
  | reservedA
  /-- RESERVED_0xB (R245). -/
  | reservedB
  /-- RESERVED_0xC (R245). -/
  | reservedC
  /-- RESERVED_0xD (R245). -/
  | reservedD
  /-- RESERVED_0xE (R245). -/
  | reservedE
  /-- RESERVED_0xF (R245). -/
  | reservedF
  /-- BFSKIP, a pseudo-instruction: `BFTAKE.U n` (R93). DEDUCED (log entry 2), safe. -/
  | bfskip (n : BitVec 6)
  /-- TICKS, a pseudo-instruction: `k` copies of `TICK` (R93). DEDUCED (log entry 2), safe. -/
  | ticks (k : Nat)
  /-- PDU2, a row of the identifier space: an identifier whose PDU format is 240 or more (R112), presented by IDDEC.
  DESIGN CHOICE (log entry 3), safe. -/
  | pdu2 (id : Ident)
  /-- PDU1, a row of the identifier space: every identifier that PDU2 does not match (R112), presented by IDDEC.
  DESIGN CHOICE (log entry 3), safe. -/
  | pdu1 (id : Ident)
  /-- FP_FIRST, a row of the control-byte space: a fast-packet frame of frame index 0 (R204), presented by FPINGEST.
  DESIGN CHOICE (log entry 3), safe. -/
  | fpFirst (id : Ident) (data : Payload)
  /-- FP_CONT, a row of the control-byte space: every fast-packet frame that FP_FIRST does not match (R207), presented by
  FPINGEST. DESIGN CHOICE (log entry 3), safe. -/
  | fpCont (id : Ident) (data : Payload)
deriving DecidableEq, Repr

end Sys2Proof
end

