-- ==== Sys2Proof/WellFormed.lean ====
section
/-! DEFINITION. Which instructions have legal operands (R82), and which identifiers and frames the rows of the frame spaces match (R112, R204, R207). -/

namespace Sys2Proof

/-- `DLC` or `LEN` from 0 to 8 (R82). -/
def legalCount (k : BitVec 4) : Bool := k.toNat ≤ 8

/-- `N` from 1 to 32 (R79, R82). -/
def legalWidth (n : BitVec 6) : Bool := 1 ≤ n.toNat && n.toNat ≤ 32

/-- The row PDU2 matches an identifier: `id[23:20] = 0b1111` (R87). -/
def matchesPdu2 (id : Ident) : Bool := id.extractLsb' 20 4 == 0xF#4

/-- The row FP_FIRST matches a control byte: `frame_index = 0` (R88). -/
def matchesFirst (control : Byte) : Bool := control.extractLsb' 0 5 == 0#5

/-- The operands are legal, and a frame-space row matches what it carries. An assembler encodes only such instructions
(R92). -/
def Instr.wellFormed : Instr → Bool
  | .iddec _ => true
  | .dispatch _ dlc _ => legalCount dlc
  | .fpingest _ dlc _ => legalCount dlc
  | .fpevict _ => true
  | .fpflush => true
  | .tick => true
  | .bfloadm => true
  | .bfloadi len _ => legalCount len
  | .bftakeU n => legalWidth n
  | .bftakeS n => legalWidth n
  | .reserved0 => true
  | .reservedA => true
  | .reservedB => true
  | .reservedC => true
  | .reservedD => true
  | .reservedE => true
  | .reservedF => true
  | .bfskip n => legalWidth n
  | .ticks _ => true
  | .pdu2 id => matchesPdu2 id
  | .pdu1 id => !matchesPdu2 id
  | .fpFirst _ data => matchesFirst data.b0
  | .fpCont _ data => !matchesFirst data.b0

end Sys2Proof
end

