-- ==== Sys2Proof/Decode.lean ====
section
/-! DEFINITION. Packets: their length, the decoder, the encoder, the opcode table as rows, and the assembler of R92. -/

namespace Sys2Proof

/-! ## Packet framing -/

/-- The opcode of a packet, `w0[31:28]` (R72). -/
def opcode (w0 : Word) : BitVec 4 := w0.extractLsb' 28 4

/-- How many words a packet has: the opcode alone fixes it (R73, R95). -/
def packetLength (w0 : Word) : Nat :=
  match (opcode w0).toNat with
  | 1 => 2
  | 2 => 4
  | 3 => 4
  | 8 => 3
  | _ => 1

/-! ## Operand fields -/

/-- The identifier, `w1[28:0]`; `w1[31:29]` is ignored (R75, R81). -/
def identField (w1 : Word) : Ident := w1.extractLsb' 0 29

/-- Payload packing: `data[k]` is `w[8k+7:8k]` of the first data word, `data[4+k]` of the second (R77). -/
def unpackPayload (first second : Word) : Payload where
  b0 := first.extractLsb' 0 8
  b1 := first.extractLsb' 8 8
  b2 := first.extractLsb' 16 8
  b3 := first.extractLsb' 24 8
  b4 := second.extractLsb' 0 8
  b5 := second.extractLsb' 8 8
  b6 := second.extractLsb' 16 8
  b7 := second.extractLsb' 24 8

/-- The first data word of a payload (R77). -/
def Payload.firstWord (d : Payload) : Word := d.b3 ++ d.b2 ++ d.b1 ++ d.b0

/-- The second data word of a payload (R77). -/
def Payload.secondWord (d : Payload) : Word := d.b7 ++ d.b6 ++ d.b5 ++ d.b4

/-! ## The decoder -/

/-- Why a list of words is no instruction. -/
inductive Reject where
  /-- The packet has fewer words than its opcode needs: the block waits for the rest (R31, R72). -/
  | incomplete
  /-- A should-be-zero field is not zero: the block answers BAD_COMMAND (R84). -/
  | nonZeroSbz
deriving DecidableEq, Repr

/-- An instruction if its SBZ field is zero, and the rejection of R84 if not. -/
def checkSbz (sbzIsZero : Bool) (i : Instr) : Except Reject Instr :=
  if sbzIsZero then .ok i else .error .nonZeroSbz

/-- The instruction of a packet whose words are all there, in the order of checks of R84 and R263: the opcode first, then the
SBZ fields. The operand values of R82 are checked by the instruction's meaning. DEDUCED (log entry 4), safe. -/
def decodeFields (w0 w1 w2 w3 : Word) : Except Reject Instr :=
  match (opcode w0).toNat with
  | 0x0 => .ok .reserved0
  | 0x1 => checkSbz (w0.extractLsb' 0 28 == 0#28) (.iddec (identField w1))
  | 0x2 =>
    checkSbz (w0.extractLsb' 0 24 == 0#24) (.dispatch (identField w1) (w0.extractLsb' 24 4) (unpackPayload w2 w3))
  | 0x3 =>
    checkSbz (w0.extractLsb' 0 24 == 0#24) (.fpingest (identField w1) (w0.extractLsb' 24 4) (unpackPayload w2 w3))
  | 0x4 => checkSbz (w0.extractLsb' 8 20 == 0#20) (.fpevict (w0.extractLsb' 0 8))
  | 0x5 => checkSbz (w0.extractLsb' 0 28 == 0#28) .fpflush
  | 0x6 => checkSbz (w0.extractLsb' 0 28 == 0#28) .tick
  | 0x7 => checkSbz (w0.extractLsb' 0 28 == 0#28) .bfloadm
  | 0x8 => checkSbz (w0.extractLsb' 0 24 == 0#24) (.bfloadi (w0.extractLsb' 24 4) (unpackPayload w1 w2))
  | 0x9 =>
    checkSbz (w0.extractLsb' 7 21 == 0#21)
      (if w0.extractLsb' 6 1 = 0#1 then .bftakeU (w0.extractLsb' 0 6) else .bftakeS (w0.extractLsb' 0 6))
  | 0xA => .ok .reservedA
  | 0xB => .ok .reservedB
  | 0xC => .ok .reservedC
  | 0xD => .ok .reservedD
  | 0xE => .ok .reservedE
  | _ => .ok .reservedF

/-- The decoder: the instruction of the packet that a list of words begins with. It is total, and words after the packet are
not read (log entry 10). -/
def decode : List Word → Except Reject Instr
  | [] => .error .incomplete
  | w0 :: rest =>
    if rest.length + 1 < packetLength w0 then .error .incomplete
    else decodeFields w0 (rest.getD 0 0) (rest.getD 1 0) (rest.getD 2 0)

/-- The words of an instruction whose bits are `w`, of which the table gives `nbits`: bit 0 is bit 0 of the first word, and a
later word's bits count on from it. Every bit above `nbits` is 0. -/
def tableWords (nbits w : Nat) : List Word :=
  let v := w % 2 ^ nbits
  let w0 : Word := BitVec.ofNat 32 v
  [w0, BitVec.ofNat 32 (v >>> 32), BitVec.ofNat 32 (v >>> 64), BitVec.ofNat 32 (v >>> 96)].take (packetLength w0)

/-- The instruction that the decoder reads from a word numbered as spec/opcode_table.json numbers its bits. -/
def decodeTableWord (nbits w : Nat) : Option Instr :=
  match decode (tableWords nbits w) with
  | .ok i => some i
  | .error _ => none

/-! ## The encoder -/

/-- The first word of formats NOARG and ID: the opcode and 28 zero bits (R74, R75). -/
def wordPlain (op : BitVec 4) : Word := op ++ 0#28

/-- The first word of formats FRAME and LOADI: the opcode, the count and 24 zero bits (R76, R78). -/
def wordCount (op count : BitVec 4) : Word := op ++ count ++ 0#24

/-- The word of format TAKE (R79). -/
def wordTake (signed : BitVec 1) (n : BitVec 6) : Word := 0x9#4 ++ 0#21 ++ signed ++ n

/-- The word of format EVICT (R80). -/
def wordEvict (sa : SourceAddr) : Word := 0x4#4 ++ 0#20 ++ sa

/-- The identifier word, with the ignored bits zero (R75). -/
def wordIdent (id : Ident) : Word := 0#3 ++ id

/-- The four words of a FRAME packet (R76). -/
def frameWords (op : BitVec 4) (id : Ident) (dlc : BitVec 4) (data : Payload) : List Word :=
  [wordCount op dlc, wordIdent id, data.firstWord, data.secondWord]

/-- The words of an instruction (R73 to R80; R93 for the pseudo-instructions). -/
def encode : Instr → List Word
  | .iddec id => [wordPlain 0x1#4, wordIdent id]
  | .dispatch id dlc data => frameWords 0x2#4 id dlc data
  | .fpingest id dlc data => frameWords 0x3#4 id dlc data
  | .fpevict sa => [wordEvict sa]
  | .fpflush => [wordPlain 0x5#4]
  | .tick => [wordPlain 0x6#4]
  | .bfloadm => [wordPlain 0x7#4]
  | .bfloadi len data => [wordCount 0x8#4 len, data.firstWord, data.secondWord]
  | .bftakeU n => [wordTake 0#1 n]
  | .bftakeS n => [wordTake 1#1 n]
  | .reserved0 => [wordPlain 0x0#4]
  | .reservedA => [wordPlain 0xA#4]
  | .reservedB => [wordPlain 0xB#4]
  | .reservedC => [wordPlain 0xC#4]
  | .reservedD => [wordPlain 0xD#4]
  | .reservedE => [wordPlain 0xE#4]
  | .reservedF => [wordPlain 0xF#4]
  | .bfskip n => [wordTake 0#1 n]
  | .ticks k => List.replicate k (wordPlain 0x6#4)
  | .pdu2 id => [wordPlain 0x1#4, wordIdent id]
  | .pdu1 id => [wordPlain 0x1#4, wordIdent id]
  | .fpFirst id data => frameWords 0x3#4 id 8#4 data
  | .fpCont id data => frameWords 0x3#4 id 8#4 data

/-- The commands that an instruction stands for: itself for a command or a reserved opcode, its expansion for a
pseudo-instruction (R93), the command that presents it for a frame-space row (log entry 3). -/
def commandsOf : Instr → List Instr
  | .iddec id => [.iddec id]
  | .dispatch id dlc data => [.dispatch id dlc data]
  | .fpingest id dlc data => [.fpingest id dlc data]
  | .fpevict sa => [.fpevict sa]
  | .fpflush => [.fpflush]
  | .tick => [.tick]
  | .bfloadm => [.bfloadm]
  | .bfloadi len data => [.bfloadi len data]
  | .bftakeU n => [.bftakeU n]
  | .bftakeS n => [.bftakeS n]
  | .reserved0 => [.reserved0]
  | .reservedA => [.reservedA]
  | .reservedB => [.reservedB]
  | .reservedC => [.reservedC]
  | .reservedD => [.reservedD]
  | .reservedE => [.reservedE]
  | .reservedF => [.reservedF]
  | .bfskip n => [.bftakeU n]
  | .ticks k => List.replicate k .tick
  | .pdu2 id => [.iddec id]
  | .pdu1 id => [.iddec id]
  | .fpFirst id data => [.fpingest id 8#4 data]
  | .fpCont id data => [.fpingest id 8#4 data]

/-! ## The opcode table as rows -/

/-- A row of the opcode map: match and mask apply to the first word, every SBZ bit being in the mask (R73, R84). -/
structure OpcodeRow where
  mnemonic : String
  words : Nat
  value : Word
  mask : Word
deriving DecidableEq, Repr

/-- The rows of the commands and of the reserved opcodes (R73). -/
def opcodeRows : List OpcodeRow :=
  [⟨"IDDEC", 2, 0x10000000#32, 0xFFFFFFFF#32⟩, ⟨"DISPATCH", 4, 0x20000000#32, 0xF0FFFFFF#32⟩,
   ⟨"FPINGEST", 4, 0x30000000#32, 0xF0FFFFFF#32⟩, ⟨"FPEVICT", 1, 0x40000000#32, 0xFFFFFF00#32⟩,
   ⟨"FPFLUSH", 1, 0x50000000#32, 0xFFFFFFFF#32⟩, ⟨"TICK", 1, 0x60000000#32, 0xFFFFFFFF#32⟩,
   ⟨"BFLOADM", 1, 0x70000000#32, 0xFFFFFFFF#32⟩, ⟨"BFLOADI", 3, 0x80000000#32, 0xF0FFFFFF#32⟩,
   ⟨"BFTAKE.U", 1, 0x90000000#32, 0xFFFFFFC0#32⟩, ⟨"BFTAKE.S", 1, 0x90000040#32, 0xFFFFFFC0#32⟩] ++
  [⟨"RESERVED_0x0", 1, 0x00000000#32, 0xF0000000#32⟩, ⟨"RESERVED_0xA", 1, 0xA0000000#32, 0xF0000000#32⟩,
   ⟨"RESERVED_0xB", 1, 0xB0000000#32, 0xF0000000#32⟩, ⟨"RESERVED_0xC", 1, 0xC0000000#32, 0xF0000000#32⟩,
   ⟨"RESERVED_0xD", 1, 0xD0000000#32, 0xF0000000#32⟩, ⟨"RESERVED_0xE", 1, 0xE0000000#32, 0xF0000000#32⟩,
   ⟨"RESERVED_0xF", 1, 0xF0000000#32, 0xF0000000#32⟩]

/-- A row matches a first word. -/
def OpcodeRow.matchesWord (r : OpcodeRow) (w0 : Word) : Bool := w0 &&& r.mask == r.value

/-- The mnemonic of an instruction's row. -/
def Instr.mnemonic : Instr → String
  | .iddec _ => "IDDEC"
  | .dispatch _ _ _ => "DISPATCH"
  | .fpingest _ _ _ => "FPINGEST"
  | .fpevict _ => "FPEVICT"
  | .fpflush => "FPFLUSH"
  | .tick => "TICK"
  | .bfloadm => "BFLOADM"
  | .bfloadi _ _ => "BFLOADI"
  | .bftakeU _ => "BFTAKE.U"
  | .bftakeS _ => "BFTAKE.S"
  | .reserved0 => "RESERVED_0x0"
  | .reservedA => "RESERVED_0xA"
  | .reservedB => "RESERVED_0xB"
  | .reservedC => "RESERVED_0xC"
  | .reservedD => "RESERVED_0xD"
  | .reservedE => "RESERVED_0xE"
  | .reservedF => "RESERVED_0xF"
  | .bfskip _ => "BFSKIP"
  | .ticks _ => "TICKS"
  | .pdu2 _ => "PDU2"
  | .pdu1 _ => "PDU1"
  | .fpFirst _ _ => "FP_FIRST"
  | .fpCont _ _ => "FP_CONT"

/-! ## The assembler -/

/-- The payload of a byte list: the bytes it omits are 0x00 (R92). -/
def payloadOf (bytes : List Byte) : Payload where
  b0 := bytes.getD 0 0
  b1 := bytes.getD 1 0
  b2 := bytes.getD 2 0
  b3 := bytes.getD 3 0
  b4 := bytes.getD 4 0
  b5 := bytes.getD 5 0
  b6 := bytes.getD 6 0
  b7 := bytes.getD 7 0

/-- A line of assembly: the mnemonic and its operands as numbers (R92, R93). -/
inductive AsmLine where
  | iddec (id : Nat)
  | dispatch (id dlc : Nat) (bytes : List Byte)
  | fpingest (id dlc : Nat) (bytes : List Byte)
  | fpevict (sa : Nat)
  | fpflush
  | tick
  | bfloadm
  | bfloadi (len : Nat) (bytes : List Byte)
  | bftakeU (n : Nat)
  | bftakeS (n : Nat)
  | bfskip (n : Nat)
  | ticks (k : Nat)
deriving DecidableEq, Repr

/-- An instruction, if every operand is in range (R92). -/
def assembleIf (inRange : Bool) (i : Instr) : Option Instr := if inRange then some i else none

/-- The instruction of a line: an assembler refuses a value out of range, and a byte list that does not hold exactly `dlc`
(`len`) bytes (R92). -/
def assembleLine : AsmLine → Option Instr
  | .iddec id => assembleIf (id < 2 ^ 29) (.iddec (BitVec.ofNat 29 id))
  | .dispatch id dlc bytes =>
    assembleIf (id < 2 ^ 29 && dlc ≤ 8 && bytes.length == dlc)
      (.dispatch (BitVec.ofNat 29 id) (BitVec.ofNat 4 dlc) (payloadOf bytes))
  | .fpingest id dlc bytes =>
    assembleIf (id < 2 ^ 29 && dlc ≤ 8 && bytes.length == dlc)
      (.fpingest (BitVec.ofNat 29 id) (BitVec.ofNat 4 dlc) (payloadOf bytes))
  | .fpevict sa => assembleIf (sa < 256) (.fpevict (BitVec.ofNat 8 sa))
  | .fpflush => some .fpflush
  | .tick => some .tick
  | .bfloadm => some .bfloadm
  | .bfloadi len bytes =>
    assembleIf (len ≤ 8 && bytes.length == len) (.bfloadi (BitVec.ofNat 4 len) (payloadOf bytes))
  | .bftakeU n => assembleIf (1 ≤ n && n ≤ 32) (.bftakeU (BitVec.ofNat 6 n))
  | .bftakeS n => assembleIf (1 ≤ n && n ≤ 32) (.bftakeS (BitVec.ofNat 6 n))
  | .bfskip n => assembleIf (1 ≤ n && n ≤ 32) (.bfskip (BitVec.ofNat 6 n))
  | .ticks k => some (.ticks k)

/-- The words that a line assembles to (R92, R93). -/
def assemble (l : AsmLine) : Option (List Word) := (assembleLine l).map encode

end Sys2Proof
end

