-- ==== Sys2Proof/Machine/State.lean ====
section
/-! DEFINITION. The state of the block (R20 to R32), the responses (R90, R260), the ports as the model holds them, and the state after reset. -/

namespace Sys2Proof.Machine

/-- The size of each byte store: `FP_BUF_BYTES` (R8, R50). -/
def bufBytes : Nat := 223

/-- A byte store of 223 bytes (R50), as the list of its (offset, byte) pairs in canonical form. An offset that is not listed
reads 0x00 (log entry 8). -/
abbrev Memory := List Host.Cell

/-- The canonical form: offsets strictly rising and below 223, and no byte equal to what an unlisted offset reads as. -/
abbrev Memory.wf (m : Memory) : Prop :=
  m.Pairwise (fun a b => a.1 < b.1) ∧ ∀ c ∈ m, c.1 < bufBytes ∧ c.2 ≠ 0#8

/-- A reassembly entry (R24). -/
structure Entry where
  /-- PGN of the first frame. -/
  pgn : Pgn
  /-- Sequence id of the first frame. -/
  seq : BitVec 3
  /-- Declared length, payload byte 1 of the first frame. -/
  decl : BitVec 8
  /-- High-water: one past the highest byte offset written. -/
  hw : BitVec 8
  /-- Payload bytes at absolute offsets 0 to 222. -/
  data : Memory
  /-- Frames accepted into the entry, first frame included. -/
  frames : BitVec 8
  /-- Ticks since the last frame the entry accepted. -/
  age : BitVec 16
deriving DecidableEq, Repr

/-- The reassembly table: a partial map from the source address to an entry (R23), as the list of its pairs with the source
addresses strictly rising. -/
abbrev Table := List (SourceAddr × Entry)

/-- The canonical form of the table: at most one entry for a source address, in rising order. -/
abbrev Table.wf (t : Table) : Prop := t.Pairwise (fun a b => a.1.toNat < b.1.toNat)

/-- The message buffer: the last delivered payload (R27). -/
structure Message where
  pgn : Pgn
  sa : SourceAddr
  len : BitVec 8
  bytes : Memory
deriving DecidableEq, Repr

/-- The bit-field reader (R28). -/
structure Reader where
  /-- The bytes being read, a copy made at load. -/
  buf : Memory
  /-- Number of valid bytes in `buf`. -/
  len : BitVec 8
  /-- Bit offset of the next bit to consume. -/
  cur : BitVec 11
  /-- Set when a take failed; while it is set every take fails. The block's only flag (R29). -/
  abort : Bool
deriving DecidableEq, Repr

/-- The status codes that are given (R260). Codes 9 to 15 are never given. -/
inductive Status where
  | ok
  | decoded
  | pending
  | unknown
  | seqMismatch
  | parseError
  | capacityExceeded
  | stale
  | badCommand
deriving DecidableEq, Repr

/-- A response (R90). Its wire form is `Response.words`. -/
structure Response where
  status : Status
  cls : FrameClass
  pgn : Pgn
  sa : SourceAddr
  value : Word
deriving DecidableEq, Repr

/-- What the host does to the block's inputs (R70). -/
inductive PortInput where
  /-- One word moves on the command port. -/
  | word (w : Word)
  /-- `rst` is asserted and released (R290). `lost` is how many of the newest responses were still being emitted and do not
  reach the host: any value (R291, I14; log entry 7). -/
  | rst (lost : Nat)
deriving DecidableEq, Repr

/-- The block's state (R20), and its two ports. -/
structure State where
  /-- The reassembly table `S.fp` (R23). -/
  fp : Table
  /-- The message buffer `S.msg` (R27). -/
  msg : Message
  /-- The bit-field reader `S.rd` (R28). -/
  rd : Reader
  /-- The packet assembler `S.pa`: the words of a command received so far, oldest first (R31). -/
  pa : List Word
  /-- The model's own: what the host will do to the inputs, in order (R70; log entry 5). -/
  cmdIn : List PortInput
  /-- The model's own: the responses given, oldest first (R71, R300; log entry 6). -/
  rspOut : List Response
deriving DecidableEq, Repr

/-- Why a step could stop with a fault: there is no reason. Errors are values, never traps, and no input stops the block
(R261, R271). No constructor, so no step can fault (log entry 15); safe, the spec says so. -/
inductive Fault where
deriving DecidableEq, Repr

/-- Why a step could be refused. -/
inductive Refusal where
  /-- Raised by an arm of `exec` whose instruction has no meaning yet: there is none such. Safe. -/
  | notModelled (mnemonic : String)
deriving DecidableEq, Repr

/-- The empty message buffer (R32). -/
def Message.empty : Message where
  pgn := 0#18
  sa := 0#8
  len := 0#8
  bytes := []

/-- The empty reader (R32). -/
def Reader.empty : Reader where
  buf := []
  len := 0#8
  cur := 0#11
  abort := false

/-- The state after reset (R32, R290). The two ports are the model's own: nothing has been offered and no response has been
given (DESIGN CHOICE, log entries 5 and 6). -/
def State.reset : State where
  fp := []
  msg := Message.empty
  rd := Reader.empty
  pa := []
  cmdIn := []
  rspOut := []

end Sys2Proof.Machine
end

