-- ==== Sys2Proof/Machine/Operands.lean ====
section
/-! DEFINITION. The operand forms: identifier fields and PGN (R111 to R114), control byte (R88, R203), payload bytes (R89), and the wire form of a response (R90, R260). -/

namespace Sys2Proof.Machine

/-! ## The identifier -/

/-- `priority(id) = id[28:26]` (R111). It is extracted and reported, and read by no other rule (R117). -/
def priority (id : Ident) : BitVec 3 := id.extractLsb' 26 3

/-- `data_page(id) = id[25:24]` (R111). -/
def dataPage (id : Ident) : BitVec 2 := id.extractLsb' 24 2

/-- `pdu_format(id) = id[23:16]` (R111). -/
def pduFormat (id : Ident) : BitVec 8 := id.extractLsb' 16 8

/-- `pdu_specific(id) = id[15:8]` (R111). -/
def pduSpecific (id : Ident) : BitVec 8 := id.extractLsb' 8 8

/-- `source_address(id) = id[7:0]` (R111). -/
def sourceAddress (id : Ident) : SourceAddr := id.extractLsb' 0 8

/-- The addressing formats of an identifier (R112). -/
inductive PduKind where
  /-- Destination-specific. -/
  | pdu1
  /-- Broadcast. -/
  | pdu2
deriving DecidableEq, Repr

/-- `format(id)`: PDU1 below 240, PDU2 from 240 (R87, R112). -/
def pduKind (id : Ident) : PduKind := if (pduFormat id).toNat < 240 then .pdu1 else .pdu2

/-- `pgn(id)` (R113): the PDU-specific field is the low byte under PDU2, and is left out under PDU1. -/
def pgnOf (id : Ident) : Pgn :=
  match pduKind id with
  | .pdu1 => ((dataPage id).setWidth 18 <<< 16) ||| ((pduFormat id).setWidth 18 <<< 8)
  | .pdu2 =>
    ((dataPage id).setWidth 18 <<< 16) ||| ((pduFormat id).setWidth 18 <<< 8) ||| (pduSpecific id).setWidth 18

/-- `class(id) = PGN_CLASS(pgn(id))` (R114). -/
def classOf (c : Config) (id : Ident) : FrameClass := c.pgnClass (pgnOf id)

/-- The value of IDDEC: bit 31 is the format (0 = PDU1), bits 30:29 are 0, the rest is the identifier (R115). -/
def identValue (id : Ident) : Word :=
  match pduKind id with
  | .pdu1 => id.setWidth 32
  | .pdu2 => (1#32 <<< 31) ||| id.setWidth 32

/-! ## The fast-packet control byte -/

/-- `sequence_id = data[0][7:5]` (R88, R203). -/
def sequenceId (control : Byte) : BitVec 3 := control.extractLsb' 5 3

/-- `frame_index = data[0][4:0]` (R88, R203). -/
def frameIndex (control : Byte) : BitVec 5 := control.extractLsb' 0 5

/-- Where continuation frame `k` puts its first byte: `6 + (k-1)*7` (R58, R207). -/
def frameOffset (k : BitVec 5) : Nat := 6 + (k.toNat - 1) * 7

/-! ## The payload -/

/-- The payload bytes in index order (R51, R89). -/
def payloadBytes (d : Payload) : List Byte := [d.b0, d.b1, d.b2, d.b3, d.b4, d.b5, d.b6, d.b7]

/-- The six data bytes of a first frame, `data[2..8)` (R88, R206). -/
def firstFrameBytes (d : Payload) : List Byte := [d.b2, d.b3, d.b4, d.b5, d.b6, d.b7]

/-- The seven data bytes of a continuation frame, `data[1..8)` (R88, R207). -/
def contFrameBytes (d : Payload) : List Byte := [d.b1, d.b2, d.b3, d.b4, d.b5, d.b6, d.b7]

/-- `pending_value(e) = e.seq << 16 | e.decl << 8 | e.hw` (R201, R217). -/
def pendingValue (e : Entry) : Word :=
  (e.seq.setWidth 32 <<< 16) ||| (e.decl.setWidth 32 <<< 8) ||| e.hw.setWidth 32

/-! ## The wire form of a response -/

/-- The status codes (R260). -/
def statusCode : Status → BitVec 4
  | .ok => 0#4
  | .decoded => 1#4
  | .pending => 2#4
  | .unknown => 3#4
  | .seqMismatch => 4#4
  | .parseError => 5#4
  | .capacityExceeded => 6#4
  | .stale => 7#4
  | .badCommand => 8#4

/-- The class codes: 0 UNKNOWN, 1 SINGLE, 2 FAST_PACKET (R11, R90). -/
def classCode : FrameClass → BitVec 2
  | .unknown => 0#2
  | .single => 1#2
  | .fastPacket => 2#2

/-- `resp0` (R90). -/
def Response.word0 (r : Response) : Word := statusCode r.status ++ classCode r.cls ++ r.pgn ++ r.sa

/-- The two words of a response, `resp0` then `resp1` (R71, R90). -/
def Response.words (r : Response) : List Word := [r.word0, r.value]

/-- The status of a code; codes 9 to 15 are rejected (R260, I6). -/
def statusOfCode (code : BitVec 4) : Option Status :=
  if code = 0#4 then some .ok
  else if code = 1#4 then some .decoded
  else if code = 2#4 then some .pending
  else if code = 3#4 then some .unknown
  else if code = 4#4 then some .seqMismatch
  else if code = 5#4 then some .parseError
  else if code = 6#4 then some .capacityExceeded
  else if code = 7#4 then some .stale
  else if code = 8#4 then some .badCommand
  else none

/-- The class of a code; code 3 names no class (R90). -/
def classOfCode (code : BitVec 2) : Option FrameClass :=
  if code = 0#2 then some .unknown
  else if code = 1#2 then some .single
  else if code = 2#2 then some .fastPacket
  else none

/-- The response of two response words, as a host reads them (R90, I6). -/
def responseOfWords (resp0 resp1 : Word) : Option Response :=
  match statusOfCode (resp0.extractLsb' 28 4), classOfCode (resp0.extractLsb' 26 2) with
  | some st, some cl => some ⟨st, cl, resp0.extractLsb' 8 18, resp0.extractLsb' 0 8, resp1⟩
  | _, _ => none

end Sys2Proof.Machine
end

