-- ==== Sys2Proof/Machine/Flags.lean ====
section
/-! DEFINITION. The block's only flag, rd.abort (R29): when a take fails, and what sets and clears the flag (R137, R138, R141, R142). -/

namespace Sys2Proof.Machine

/-- `remaining(rd) = 8*rd.len - rd.cur` (R132); 0 in states no run reaches whose cursor lies past the bits (log entry 9). -/
def bitsRemaining (rd : Reader) : Nat := 8 * rd.len.toNat - rd.cur.toNat

/-- A take of `n` bits fails when the flag is set or fewer than `n` bits remain (R137, R138). -/
def takeFails (rd : Reader) (n : Nat) : Bool := rd.abort || decide (bitsRemaining rd < n)

/-- The reader after a failed take: the flag is set and the cursor stays (R138). -/
def setAbort (rd : Reader) : Reader := { rd with abort := true }

/-- A reader just loaded: cursor 0 and the flag cleared (R141, R142). -/
def loadedReader (buf : Memory) (len : BitVec 8) : Reader where
  buf := buf
  len := len
  cur := 0#11
  abort := false

end Sys2Proof.Machine
end

