-- ==== Sys2Proof/Machine/Ops.lean ====
section
/-! DEFINITION. The named operations: byte stores, the reassembly table, delivery, the responses, reset, the take function and the ingest operation. -/

namespace Sys2Proof.Machine

/-! ## Byte stores -/

/-- The byte at an offset; an offset that is not listed reads 0x00 (log entry 8). -/
def Memory.read : Memory → Nat → Byte
  | [], _ => 0#8
  | (a, b) :: rest, i => if a = i then b else Memory.read rest i

/-- A cell put in its place by offset. -/
def Memory.place : Memory → Nat → Byte → Memory
  | [], i, v => [(i, v)]
  | (a, b) :: rest, i, v => if i < a then (i, v) :: (a, b) :: rest else (a, b) :: Memory.place rest i v

/-- One byte written. Writing 0x00 removes the cell, so that equal stores are equal lists. -/
def Memory.write (m : Memory) (i : Nat) (v : Byte) : Memory :=
  let others := m.filter (fun c => c.1 != i)
  if v = 0#8 then others else Memory.place others i v

/-- Bytes written from an offset up, in index order (R51). -/
def Memory.writeBytes : Memory → Nat → List Byte → Memory
  | m, _, [] => m
  | m, i, b :: bs => Memory.writeBytes (Memory.write m i b) (i + 1) bs

/-- A store that holds the bytes from offset 0 up, and 0x00 after them (R142, R206). -/
def Memory.ofBytes (bs : List Byte) : Memory := Memory.writeBytes [] 0 bs

/-- The first `len` bytes of a store, and 0x00 after them (R164, R210). -/
def Memory.truncate (m : Memory) (len : Nat) : Memory := m.filter (fun c => c.1 < len)

/-! ## The reassembly table -/

/-- `S.fp(sa)`: the entry of a source, `none` when the source is Idle (R22, R23). -/
def Table.find : Table → SourceAddr → Option Entry
  | [], _ => none
  | (k, e) :: rest, sa => if k = sa then some e else Table.find rest sa

/-- `S.fp(sa) <- none`. -/
def Table.erase (t : Table) (sa : SourceAddr) : Table := t.filter (fun p => p.1 != sa)

/-- An entry put in its place by source address. -/
def Table.place : Table → SourceAddr → Entry → Table
  | [], sa, e => [(sa, e)]
  | (k, x) :: rest, sa, e =>
    if sa.toNat < k.toNat then (sa, e) :: (k, x) :: rest else (k, x) :: Table.place rest sa e

/-- `S.fp(sa) <- some e`. -/
def Table.set (t : Table) (sa : SourceAddr) (e : Entry) : Table := Table.place (Table.erase t sa) sa e

/-! ## Updates of the state, one for each part -/

/-- The table replaced. -/
def State.setFp (s : State) (t : Table) : State := { s with fp := t }

/-- The reader replaced. -/
def State.setRd (s : State) (r : Reader) : State := { s with rd := r }

/-- The packet assembler replaced. -/
def State.setPa (s : State) (ws : List Word) : State := { s with pa := ws }

/-- The inputs to come replaced. -/
def State.setCmdIn (s : State) (ins : List PortInput) : State := { s with cmdIn := ins }

/-- `respond(status, class, pgn, sa, value)`: a command ends and gives its response (R15, R71, R90). -/
def State.respond (s : State) (r : Response) : State := { s with rspOut := s.rspOut ++ [r] }

/-- `deliver(pgn, sa, L, bytes)`: the message buffer takes the first `L` bytes, and 0x00 after them (R164). -/
def State.deliver (s : State) (pgn : Pgn) (sa : SourceAddr) (len : BitVec 8) (bytes : Memory) : State :=
  { s with msg := ⟨pgn, sa, len, Memory.truncate bytes len.toNat⟩ }

/-! ## The error response and reset -/

/-- The response of a packet that is turned away: BAD_COMMAND with every other field 0 (R82, R83, R84). -/
def badCommandResponse : Response := ⟨.badCommand, .unknown, 0#18, 0#8, 0#32⟩

/-- The error response: no state changes besides the packet assembler (R82, R83, R84). No error is a trap, so this is all
that an error does (R261, R262, R271). -/
def State.respondBadCommand (s : State) : State := s.respond badCommandResponse

/-- Reset: every part of the block goes to its reset value and a partial packet is dropped (R290, R291). The inputs still to
come stay, and so do the responses already given, but for the `lost` newest, whose emission the reset cut off (R291, I14;
log entry 7). Reset gives no response. -/
def State.applyReset (s : State) (lost : Nat) : State :=
  { State.reset with cmdIn := s.cmdIn, rspOut := s.rspOut.take (s.rspOut.length - lost) }

/-! ## The take function of the reader -/

/-- `bit(rd, p) = rd.buf[p div 8][7 - (p mod 8)]` (R131). -/
def bitAt (rd : Reader) (p : Nat) : Bool := (Memory.read rd.buf (p / 8)).getLsbD (7 - p % 8)

/-- `assemble(rd, n)`: the sum of `bit(rd, rd.cur + i) << (n-1-i)` (R133). -/
def assembleBits (rd : Reader) (n : Nat) : Nat :=
  ((List.range n).map fun i => (bitAt rd (rd.cur.toNat + i)).toNat <<< (n - 1 - i)).sum

/-- `reorder(raw, n)`: the bytes reversed when the width is a multiple of 8 (R134), the value as it stands otherwise
(R135). -/
def reorderBytes (raw n : Nat) : Nat :=
  if n % 8 = 0 then
    ((List.range (n / 8)).map fun j => ((raw >>> (8 * (n / 8 - 1 - j))) % 256) <<< (8 * j)).sum
  else raw

/-- The two forms of a take (R136). -/
inductive TakeForm where
  /-- `take_bits`: zero-extended. -/
  | unsigned
  /-- `take_signed_bits`: sign-extended from bit `n-1` of the reordered value. -/
  | signed
deriving DecidableEq, Repr

/-- The value widened to 32 bits (R136). -/
def widenTaken (form : TakeForm) (v n : Nat) : Word :=
  match form with
  | .unsigned => BitVec.ofNat 32 v
  | .signed => (BitVec.ofNat n v).signExtend 32

/-- `take(rd, n, s)` for a width of 1 to 32 (R137). -/
def takeField (rd : Reader) (n : Nat) (form : TakeForm) : Option Word × Reader :=
  if takeFails rd n then
    (none, setAbort rd)
  else
    (some (widenTaken form (reorderBytes (assembleBits rd n) n) n),
      { rd with cur := BitVec.ofNat 11 (rd.cur.toNat + n) })

/-- What BFTAKE does (R139, R140): an illegal width is turned away (R82), a take that fails answers PARSE_ERROR. -/
def takeCommand (n : BitVec 6) (form : TakeForm) (s : State) : State :=
  if legalWidth n then
    match takeField s.rd n.toNat form with
    | (some v, rd') => (s.setRd rd').respond ⟨.ok, .unknown, 0#18, 0#8, v⟩
    | (none, rd') => (s.setRd rd').respond ⟨.parseError, .unknown, 0#18, 0#8, 0#32⟩
  else s.respondBadCommand

/-! ## The ingest operation of the reassembler -/

/-- The entry that a first frame makes (R204, R206). -/
def newEntry (pgn : Pgn) (d : Payload) : Entry where
  pgn := pgn
  seq := sequenceId d.b0
  decl := d.b1
  hw := 6#8
  data := Memory.ofBytes (firstFrameBytes d)
  frames := 1#8
  age := 0#16

/-- The entry after it accepts a continuation frame: placement (R207), high-water (R209), the saturating frame count (R24,
R211) and the age (R244). -/
def acceptFrame (e : Entry) (d : Payload) : Entry :=
  let off := frameOffset (frameIndex d.b0)
  { e with
    data := Memory.writeBytes e.data off (contFrameBytes d)
    hw := BitVec.ofNat 8 (max e.hw.toNat (off + 7))
    frames := BitVec.ofNat 8 (min (e.frames.toNat + 1) 255)
    age := 0#16 }

/-- A first frame (R201, branch `idx = 0`): a short message is delivered at once (R205), a full table refuses a source that
has no entry (R212), and the frame budget evicts an entry at once when it is 1 (R211). -/
def ingestFirst (c : Config) (pgn : Pgn) (sa : SourceAddr) (d : Payload) (s : State) : State :=
  if d.b1.toNat ≤ 6 then
    ((s.setFp (Table.erase s.fp sa)).deliver pgn sa d.b1 (Memory.ofBytes (firstFrameBytes d))).respond
      ⟨.decoded, .fastPacket, pgn, sa, d.b1.setWidth 32⟩
  else if Table.find s.fp sa = none ∧ s.fp.length = c.fpEntries then
    s.respond ⟨.capacityExceeded, .fastPacket, pgn, sa, 1#32⟩
  else if c.fpMaxFrames ≤ (newEntry pgn d).frames.toNat then
    (s.setFp (Table.erase s.fp sa)).respond ⟨.capacityExceeded, .fastPacket, pgn, sa, 0#32⟩
  else
    (s.setFp (Table.set s.fp sa (newEntry pgn d))).respond
      ⟨.pending, .fastPacket, pgn, sa, pendingValue (newEntry pgn d)⟩

/-- An accepted continuation frame that makes the entry `e` (R201): completion is checked before the frame budget (R210,
R211). -/
def ingestAccepted (c : Config) (pgn : Pgn) (sa : SourceAddr) (e : Entry) (s : State) : State :=
  if e.decl.toNat ≤ e.hw.toNat then
    ((s.setFp (Table.erase s.fp sa)).deliver pgn sa e.decl e.data).respond
      ⟨.decoded, .fastPacket, pgn, sa, e.decl.setWidth 32⟩
  else if c.fpMaxFrames ≤ e.frames.toNat then
    (s.setFp (Table.erase s.fp sa)).respond ⟨.capacityExceeded, .fastPacket, pgn, sa, 0#32⟩
  else
    (s.setFp (Table.set s.fp sa e)).respond ⟨.pending, .fastPacket, pgn, sa, pendingValue e⟩

/-- A continuation frame (R201, branch `idx != 0`): it is accepted only into an entry of the same sequence id and PGN, and a
mismatch changes nothing (R208). -/
def ingestContinuation (c : Config) (pgn : Pgn) (sa : SourceAddr) (d : Payload) (s : State) : State :=
  match Table.find s.fp sa with
  | none => s.respond ⟨.seqMismatch, .fastPacket, pgn, sa, d.b0.setWidth 32⟩
  | some e =>
    if e.seq ≠ sequenceId d.b0 ∨ e.pgn ≠ pgn then
      s.respond ⟨.seqMismatch, .fastPacket, pgn, sa, d.b0.setWidth 32⟩
    else ingestAccepted c pgn sa (acceptFrame e d) s

/-- `ingest(pgn, sa, DLC, data)` (R201): only a frame of 8 bytes is ingested (R202). -/
def ingest (c : Config) (pgn : Pgn) (sa : SourceAddr) (dlc : BitVec 4) (d : Payload) (s : State) : State :=
  if dlc ≠ 8#4 then s.respond ⟨.parseError, .fastPacket, pgn, sa, 0#32⟩
  else if frameIndex d.b0 = 0#5 then ingestFirst c pgn sa d s
  else ingestContinuation c pgn sa d s

/-- What FPINGEST does (R213): an illegal DLC is turned away (R82); the registry is not read. -/
def ingestCommand (c : Config) (id : Ident) (dlc : BitVec 4) (d : Payload) (s : State) : State :=
  if legalCount dlc then ingest c (pgnOf id) (sourceAddress id) dlc d s else s.respondBadCommand

/-! ## The identifier decode -/

/-- What IDDEC does (R115): a pure decode, and its response. -/
def identCommand (c : Config) (id : Ident) (s : State) : State :=
  s.respond ⟨.ok, classOf c id, pgnOf id, sourceAddress id, identValue id⟩

/-! ## Ageing -/

/-- An entry one tick older, saturating at 65535 (R243, R274). -/
def ageEntry (e : Entry) : Entry := { e with age := BitVec.ofNat 16 (min (e.age.toNat + 1) 65535) }

/-- Every entry one tick older. -/
def Table.older (t : Table) : Table := t.map fun p => (p.1, ageEntry p.2)

/-- The entry has been idle for its timeout (R243). -/
def isStale (c : Config) (e : Entry) : Bool := c.fpTimeoutTicks ≤ e.age.toNat

/-- The table after one tick: every entry older, the stale ones removed (R243). -/
def Table.tick (c : Config) (t : Table) : Table := (Table.older t).filter fun p => !isStale c p.2

/-- How many entries one tick evicts (R243). -/
def staleCount (c : Config) (t : Table) : Nat := ((Table.older t).filter fun p => isStale c p.2).length

/-- What TICK does (R243). -/
def tickCommand (c : Config) (s : State) : State :=
  (s.setFp (Table.tick c s.fp)).respond
    (if staleCount c s.fp = 0 then ⟨.ok, .unknown, 0#18, 0#8, 0#32⟩
     else ⟨.stale, .unknown, 0#18, 0#8, BitVec.ofNat 32 (staleCount c s.fp)⟩)

end Sys2Proof.Machine
end

