-- ==== Sys2Proof/Machine/BitReader.lean ====
section
/-! DEFINITION. The bit-field reader: BFTAKE.U (R139), BFTAKE.S (R140), BFLOADM (R141), BFLOADI (R142), and BFSKIP (R93). -/

namespace Sys2Proof.Machine

/-- What BFLOADM does: the reader takes a copy of the message (R141, R65). -/
def loadMessageCommand (s : State) : State :=
  (s.setRd (loadedReader s.msg.bytes s.msg.len)).respond
    ⟨.ok, .unknown, s.msg.pgn, s.msg.sa, BitVec.ofNat 32 (8 * s.msg.len.toNat)⟩

/-- What BFLOADI does: the reader takes the first `LEN` bytes, and 0x00 after them (R142). An illegal LEN is turned away
(R82). -/
def loadInlineCommand (len : BitVec 4) (d : Payload) (s : State) : State :=
  if legalCount len then
    (s.setRd (loadedReader (Memory.ofBytes ((payloadBytes d).take len.toNat)) (len.setWidth 8))).respond
      ⟨.ok, .unknown, 0#18, 0#8, BitVec.ofNat 32 (8 * len.toNat)⟩
  else s.respondBadCommand

/-- BFTAKE.U (R139). -/
def execBftakeU (n : BitVec 6) (s : State) : Host.Outcome State Fault Refusal := .next (takeCommand n .unsigned s)

/-- BFTAKE.S (R140). -/
def execBftakeS (n : BitVec 6) (s : State) : Host.Outcome State Fault Refusal := .next (takeCommand n .signed s)

/-- BFSKIP: it assembles to BFTAKE.U, and the program ignores the value (R93). -/
def execBfskip (n : BitVec 6) (s : State) : Host.Outcome State Fault Refusal := .next (takeCommand n .unsigned s)

/-- BFLOADM (R141). -/
def execBfloadm (s : State) : Host.Outcome State Fault Refusal := .next (loadMessageCommand s)

/-- BFLOADI (R142). -/
def execBfloadi (len : BitVec 4) (d : Payload) (s : State) : Host.Outcome State Fault Refusal :=
  .next (loadInlineCommand len d s)

end Sys2Proof.Machine
end

