-- ==== Sys2Proof/Machine/Control.lean ====
section
/-! DEFINITION. Reassembly control: FPEVICT (R241), FPFLUSH (R242), TICK (R243) and TICKS (R93). -/

namespace Sys2Proof.Machine

/-- What FPEVICT does (R241). -/
def evictCommand (sa : SourceAddr) (s : State) : State :=
  match Table.find s.fp sa with
  | some e => (s.setFp (Table.erase s.fp sa)).respond ⟨.ok, .unknown, e.pgn, sa, 1#32⟩
  | none => s.respond ⟨.ok, .unknown, 0#18, sa, 0#32⟩

/-- What FPFLUSH does (R242). -/
def flushCommand (s : State) : State :=
  (s.setFp []).respond ⟨.ok, .unknown, 0#18, 0#8, BitVec.ofNat 32 s.fp.length⟩

/-- `k` ticks, one after another (R93). -/
def tickTimes (c : Config) : Nat → State → State
  | 0, s => s
  | k + 1, s => tickTimes c k (tickCommand c s)

/-- FPEVICT (R241). -/
def execFpevict (sa : SourceAddr) (s : State) : Host.Outcome State Fault Refusal := .next (evictCommand sa s)

/-- FPFLUSH (R242). -/
def execFpflush (s : State) : Host.Outcome State Fault Refusal := .next (flushCommand s)

/-- TICK (R243). -/
def execTick (s : State) : Host.Outcome State Fault Refusal := .next (tickCommand Config.build s)

/-- TICKS: `k` copies of TICK (R93). -/
def execTicks (k : Nat) (s : State) : Host.Outcome State Fault Refusal := .next (tickTimes Config.build k s)

end Sys2Proof.Machine
end

