-- ==== Sys2Proof/Machine/FastPacket.lean ====
section
/-! DEFINITION. Frames: DISPATCH (R162), FPINGEST (R213), and the two control-byte rows FP_FIRST (R204) and FP_CONT (R207). -/

namespace Sys2Proof.Machine

/-- A frame of a single-frame PGN: its DLC bytes are delivered as they stand, and the table is not touched (R165). -/
def deliverSingle (id : Ident) (dlc : BitVec 4) (d : Payload) (s : State) : State :=
  (s.deliver (pgnOf id) (sourceAddress id) (dlc.setWidth 8) (Memory.ofBytes ((payloadBytes d).take dlc.toNat))).respond
    ⟨.decoded, .single, pgnOf id, sourceAddress id, dlc.setWidth 32⟩

/-- What DISPATCH does (R162): an illegal DLC is turned away (R82); the class decides (R163, R165, R166). -/
def dispatchCommand (c : Config) (id : Ident) (dlc : BitVec 4) (d : Payload) (s : State) : State :=
  if legalCount dlc then
    match classOf c id with
    | .unknown => s.respond ⟨.unknown, .unknown, pgnOf id, sourceAddress id, 0#32⟩
    | .single => deliverSingle id dlc d s
    | .fastPacket => ingest c (pgnOf id) (sourceAddress id) dlc d s
  else s.respondBadCommand

/-- DISPATCH (R162). -/
def execDispatch (id : Ident) (dlc : BitVec 4) (d : Payload) (s : State) : Host.Outcome State Fault Refusal :=
  .next (dispatchCommand Config.build id dlc d s)

/-- FPINGEST (R213). -/
def execFpingest (id : Ident) (dlc : BitVec 4) (d : Payload) (s : State) : Host.Outcome State Fault Refusal :=
  .next (ingestCommand Config.build id dlc d s)

/-- FP_FIRST (R204): the ingest of an 8-byte frame that the row matches. DESIGN CHOICE (log entry 3), safe. -/
def execFpFirst (id : Ident) (d : Payload) (s : State) : Host.Outcome State Fault Refusal :=
  .next (ingestCommand Config.build id 8#4 d s)

/-- FP_CONT (R207): the ingest of an 8-byte frame that the row matches. DESIGN CHOICE (log entry 3), safe. -/
def execFpCont (id : Ident) (d : Payload) (s : State) : Host.Outcome State Fault Refusal :=
  .next (ingestCommand Config.build id 8#4 d s)

end Sys2Proof.Machine
end

