-- ==== Sys2Proof/Machine/Identifier.lean ====
section
/-! DEFINITION. The PGN extractor: IDDEC (R115) and the two identifier rows PDU1 and PDU2 (R112). -/

namespace Sys2Proof.Machine

/-- IDDEC (R115). -/
def execIddec (id : Ident) (s : State) : Host.Outcome State Fault Refusal := .next (identCommand Config.build id s)

/-- PDU2 (R112): the decode of an identifier that the row matches. DESIGN CHOICE (log entry 3), safe. -/
def execPdu2 (id : Ident) (s : State) : Host.Outcome State Fault Refusal := .next (identCommand Config.build id s)

/-- PDU1 (R112): the decode of an identifier that the row matches. DESIGN CHOICE (log entry 3), safe. -/
def execPdu1 (id : Ident) (s : State) : Host.Outcome State Fault Refusal := .next (identCommand Config.build id s)

end Sys2Proof.Machine
end

