-- ==== Sys2Proof/Machine/Reserved.lean ====
section
/-! DEFINITION. The reserved opcodes 0x0 and 0xA to 0xF: each is a one-word packet that is turned away (R83, R245). -/

namespace Sys2Proof.Machine

/-- RESERVED_0x0 (R245). -/
def execReserved0 (s : State) : Host.Outcome State Fault Refusal := .next s.respondBadCommand

/-- RESERVED_0xA (R245). -/
def execReservedA (s : State) : Host.Outcome State Fault Refusal := .next s.respondBadCommand

/-- RESERVED_0xB (R245). -/
def execReservedB (s : State) : Host.Outcome State Fault Refusal := .next s.respondBadCommand

/-- RESERVED_0xC (R245). -/
def execReservedC (s : State) : Host.Outcome State Fault Refusal := .next s.respondBadCommand

/-- RESERVED_0xD (R245). -/
def execReservedD (s : State) : Host.Outcome State Fault Refusal := .next s.respondBadCommand

/-- RESERVED_0xE (R245). -/
def execReservedE (s : State) : Host.Outcome State Fault Refusal := .next s.respondBadCommand

/-- RESERVED_0xF (R245). -/
def execReservedF (s : State) : Host.Outcome State Fault Refusal := .next s.respondBadCommand

end Sys2Proof.Machine
end

