-- ==== Sys2Proof/Machine/Dispatch.lean ====
section
/-! DEFINITION. One arm for each constructor of Instr. -/

namespace Sys2Proof.Machine

/-- The meaning of every instruction. -/
def exec (i : Instr) (s : State) : Host.Outcome State Fault Refusal :=
  match i with
  | .iddec id => Sys2Proof.Machine.execIddec id s
  | .dispatch id dlc data => Sys2Proof.Machine.execDispatch id dlc data s
  | .fpingest id dlc data => Sys2Proof.Machine.execFpingest id dlc data s
  | .fpevict sa => Sys2Proof.Machine.execFpevict sa s
  | .fpflush => Sys2Proof.Machine.execFpflush s
  | .tick => Sys2Proof.Machine.execTick s
  | .bfloadm => Sys2Proof.Machine.execBfloadm s
  | .bfloadi len data => Sys2Proof.Machine.execBfloadi len data s
  | .bftakeU n => Sys2Proof.Machine.execBftakeU n s
  | .bftakeS n => Sys2Proof.Machine.execBftakeS n s
  -- the reserved opcodes
  | .reserved0 => Sys2Proof.Machine.execReserved0 s
  | .reservedA => Sys2Proof.Machine.execReservedA s
  | .reservedB => Sys2Proof.Machine.execReservedB s
  | .reservedC => Sys2Proof.Machine.execReservedC s
  | .reservedD => Sys2Proof.Machine.execReservedD s
  | .reservedE => Sys2Proof.Machine.execReservedE s
  | .reservedF => Sys2Proof.Machine.execReservedF s
  -- the pseudo-instructions
  | .bfskip n => Sys2Proof.Machine.execBfskip n s
  | .ticks k => Sys2Proof.Machine.execTicks k s
  -- the rows of the frame spaces
  | .pdu2 id => Sys2Proof.Machine.execPdu2 id s
  | .pdu1 id => Sys2Proof.Machine.execPdu1 id s
  | .fpFirst id data => Sys2Proof.Machine.execFpFirst id data s
  | .fpCont id data => Sys2Proof.Machine.execFpCont id data s

end Sys2Proof.Machine
end

