-- ==== Sys2Proof/Machine/Packet.lean ====
section
/-! DEFINITION. The command port: how a word enters the packet assembler and completes a packet (R31, R71, R72), and how a packet is placed so that the next step runs it. -/

namespace Sys2Proof.Machine

/-- One word moves on the command port: the packet assembler takes it, and when the packet is complete the assembler is
emptied and the command executes (R31, R72). A packet with a non-zero SBZ field is consumed and turned away (R84). -/
def acceptWord (w : Word) (s : State) : Host.Outcome State Fault Refusal :=
  match decode (s.pa ++ [w]) with
  | .error .incomplete => .next (s.setPa (s.pa ++ [w]))
  | .error .nonZeroSbz => .next (s.setPa []).respondBadCommand
  | .ok i => exec i (s.setPa [])

/-- One input of the host: a word, or a reset between two words (R264, R291). -/
def acceptInput (input : PortInput) (s : State) : Host.Outcome State Fault Refusal :=
  match input with
  | .word w => acceptWord w s
  | .rst lost => .next (s.applyReset lost)

/-- The host's next input is taken; with none, the block does nothing (R278). -/
def takeInput (s : State) : Host.Outcome State Fault Refusal :=
  match s.cmdIn with
  | [] => .next s
  | input :: rest => acceptInput input (s.setCmdIn rest)

/-- A packet placed so that the next step takes its last word: all words but the last stand in the packet assembler, and the
last is the next input. -/
def placePacket (ws : List Word) (s : State) : State :=
  match ws.getLast? with
  | none => s
  | some w => (s.setPa ws.dropLast).setCmdIn (.word w :: s.cmdIn)

end Sys2Proof.Machine
end

