-- ==== Sys2Proof/Machine/Step.lean ====
section
/-! DEFINITION. One step of the machine, and an instruction placed where the step takes its next one. -/

namespace Sys2Proof.Machine

/-- One step: the host's next input is taken. A packet's last word executes its command as one atomic step (R16, R72). -/
def step (s : State) : Host.Outcome State Fault Refusal := takeInput s

/-- The instruction whose bits are `w` placed so that the very next step runs it (log entry 5). -/
def State.withFetchWord (s : State) (nbits w : Nat) : State := placePacket (tableWords nbits w) s

end Sys2Proof.Machine
end

