-- ==== Sys2Proof/Machine/Codec.lean ====
section
/-! DEFINITION. The consumer's side (R5, R145, R180 to R187): field programs over BFLOADM and BFTAKE, their scales and their enumerations. Not block logic: no meaning reads this file. -/

namespace Sys2Proof.Machine

/-! ## Field programs -/

/-- How a field is read: unsigned, signed, or skipped (R93, R180). -/
inductive FieldForm where
  | unsigned
  | signed
  | skipped
deriving DecidableEq, Repr

/-- What the consumer takes a field's value for (R186, R187). -/
inductive FieldMeaning where
  /-- A plain number: the spec gives it no scale and no labels. -/
  | plain
  | angle
  | speed
  | timeOfDay
  | date
  | reference
  | timeSource
  | calcType
  | bool2
deriving DecidableEq, Repr

/-- A field of a wire layout (R180), and what its value means. -/
structure Field where
  name : String
  width : BitVec 6
  form : FieldForm
  meaning : FieldMeaning
deriving DecidableEq, Repr

/-- The command that reads a field (R180). -/
def Field.command (f : Field) : Instr :=
  match f.form with
  | .unsigned => .bftakeU f.width
  | .signed => .bftakeS f.width
  | .skipped => .bfskip f.width

/-- The form of take of a field (R93, R180). -/
def Field.takeForm (f : Field) : TakeForm :=
  match f.form with
  | .unsigned => .unsigned
  | .signed => .signed
  | .skipped => .unsigned

/-- A field program: BFLOADM, then one take for each field in wire order (R180). -/
def fieldProgram (fields : List Field) : List Instr := .bfloadm :: fields.map Field.command

/-- The record of a layout: the values in wire order if every take answers OK, and nothing otherwise, for the consumer
discards a partial record (R180). The consumer stops at the first failure (R145; log entry 14). DESIGN CHOICE (log entry 21),
unsafe: the record holds the value of a skipped field like any other. DESIGN CHOICE (log entry 22), unsafe: a field of an illegal
width, whose take answers BAD_COMMAND (R82), leaves no record. -/
def readRecord : List Field → Reader → Option (List Word)
  | [], _ => some []
  | f :: fs, rd =>
    if legalWidth f.width then
      match takeField rd f.width.toNat f.takeForm with
      | (none, _) => none
      | (some v, rd') => (readRecord fs rd').map (v :: ·)
    else none

/-- The record of the message in the message buffer (R180). -/
def decodeMessage (fields : List Field) (m : Message) : Option (List Word) :=
  readRecord fields (loadedReader m.bytes m.len)

/-- System Time, PGN 126992 (R181, R186, R187). -/
def systemTime : List Field :=
  [⟨"sid", 8#6, .unsigned, .plain⟩, ⟨"time-source", 4#6, .unsigned, .timeSource⟩, ⟨"reserved", 4#6, .skipped, .plain⟩,
   ⟨"date", 16#6, .unsigned, .date⟩, ⟨"time-since-midnight", 32#6, .unsigned, .timeOfDay⟩]

/-- Vessel Heading (R182, R186, R187). -/
def vesselHeading : List Field :=
  [⟨"sid", 8#6, .unsigned, .plain⟩, ⟨"heading", 16#6, .unsigned, .angle⟩, ⟨"deviation", 16#6, .signed, .angle⟩,
   ⟨"variation", 16#6, .signed, .angle⟩, ⟨"reference", 2#6, .unsigned, .reference⟩]

/-- COG/SOG Rapid Update (R183, R186, R187). -/
def cogSogRapidUpdate : List Field :=
  [⟨"sid", 8#6, .unsigned, .plain⟩, ⟨"cog-reference", 2#6, .unsigned, .reference⟩, ⟨"reserved", 6#6, .skipped, .plain⟩,
   ⟨"cog", 16#6, .unsigned, .angle⟩, ⟨"sog", 16#6, .unsigned, .speed⟩]

/-- Navigation Data (R184, R186, R187). -/
def navigationData : List Field :=
  [⟨"sid", 8#6, .unsigned, .plain⟩, ⟨"distance-to-waypoint", 32#6, .unsigned, .plain⟩,
   ⟨"bearing-reference", 2#6, .unsigned, .reference⟩, ⟨"perpendicular-crossed", 2#6, .unsigned, .bool2⟩,
   ⟨"arrival-circle-entered", 2#6, .unsigned, .bool2⟩, ⟨"calc-type", 2#6, .unsigned, .calcType⟩,
   ⟨"eta-time", 32#6, .unsigned, .timeOfDay⟩, ⟨"eta-date", 16#6, .unsigned, .date⟩] ++
  [⟨"bearing-origin-to-destination", 16#6, .unsigned, .angle⟩, ⟨"bearing-origin-to-waypoint", 16#6, .unsigned, .angle⟩,
   ⟨"origin-waypoint", 32#6, .unsigned, .plain⟩, ⟨"destination-waypoint", 32#6, .unsigned, .plain⟩,
   ⟨"destination-latitude", 32#6, .unsigned, .plain⟩, ⟨"destination-longitude", 32#6, .unsigned, .plain⟩,
   ⟨"waypoint-closing-velocity", 16#6, .unsigned, .speed⟩]

/-- The bits that a layout reads. -/
def layoutBits (fields : List Field) : Nat := (fields.map fun f => f.width.toNat).sum

/-! ## Scales -/

/-- Angles in radians: `r / 10000` (R186). -/
def radians (r : Int) : Rat := mkRat r 10000

/-- Speeds in metres per second: `r / 100` (R186). -/
def metresPerSecond (r : Int) : Rat := mkRat r 100

/-- Times of day in seconds: `r / 10000` (R186). -/
def seconds (r : Int) : Rat := mkRat r 10000

/-- Dates in days: `r` (R186). -/
def days (r : Int) : Rat := r

/-- The integer that a taken value stands for, in the form that asked for it (R136). -/
def Field.integer (f : Field) (v : Word) : Int :=
  match f.form with
  | .unsigned => v.toNat
  | .signed => v.toInt
  | .skipped => v.toNat

/-! ## Enumerations: data, never a failure (R185) -/

/-- An enumeration value: a label, or the raw value that no label maps (R185). -/
inductive Labelled where
  | label (name : String)
  /-- A raw value without a label: a reserved or unused code, or one out of range. DESIGN CHOICE (log entry 23), unsafe: the spec
  names the two outcomes and does not say which raw values are which, so the model has this one case for both. -/
  | unmapped (raw : Nat)
deriving DecidableEq, Repr

/-- The label of a raw value, by position in the list of labels. -/
def labelOf (labels : List String) (raw : Nat) : Labelled :=
  match labels[raw]? with
  | some name => .label name
  | none => .unmapped raw

/-- Vessel Heading reference; also the cog-reference and the Navigation Data bearing-reference (R187, D32). -/
def referenceLabel (raw : Nat) : Labelled := labelOf ["unspecified", "True", "Magnetic", "Error"] raw

/-- System Time time-source (R187). The raw values are PRESUMED, from general knowledge (G4; log entry 14). -/
def timeSourceLabel (raw : Nat) : Labelled :=
  labelOf ["GPS", "GLONASS", "RadioStation", "LocalCesium", "LocalRubidium", "LocalCrystal"] raw

/-- Navigation Data calc-type (R187). The raw values are PRESUMED, from general knowledge (G5; log entry 14). -/
def calcTypeLabel (raw : Nat) : Labelled := labelOf ["GreatCircle", "Rhumbline"] raw

/-- A "2→bool" field, by the consumer's open parameter `BOOL2_MAP` (R187, D32). -/
def bool2Value (c : Config) (raw : BitVec 2) : Option Bool := c.bool2Map raw

/-! ## What the consumer makes of each value -/

/-- The units of R186. -/
inductive PhysicalUnit where
  | radian
  | metrePerSecond
  | second
  | day
deriving DecidableEq, Repr

/-- What a value stands for: a plain number, an exact quantity in a unit (R186), an enumeration value (R185, R187), or a
truth value that `BOOL2_MAP` may leave unmapped (D32). -/
inductive Reading where
  | number (n : Int)
  | quantity (q : Rat) (u : PhysicalUnit)
  | enumeration (l : Labelled)
  | truth (b : Option Bool)
deriving DecidableEq, Repr

/-- The reading of a value that was taken for a field (R186, R187). -/
def Field.reading (c : Config) (f : Field) (v : Word) : Reading :=
  match f.meaning with
  | .plain => .number (f.integer v)
  | .angle => .quantity (radians (f.integer v)) .radian
  | .speed => .quantity (metresPerSecond (f.integer v)) .metrePerSecond
  | .timeOfDay => .quantity (seconds (f.integer v)) .second
  | .date => .quantity (days (f.integer v)) .day
  | .reference => .enumeration (referenceLabel v.toNat)
  | .timeSource => .enumeration (timeSourceLabel v.toNat)
  | .calcType => .enumeration (calcTypeLabel v.toNat)
  | .bool2 => .truth (bool2Value c (v.setWidth 2))

/-- The readings of a message, field by field, if its record exists (R180, R186, R187). -/
def readMessage (c : Config) (fields : List Field) (m : Message) : Option (List Reading) :=
  (decodeMessage fields m).map fun vs => List.zipWith (Field.reading c) fields vs

end Sys2Proof.Machine
end

