-- ==== Sys2Proof/Machine/Registry.lean ====
section
/-! DEFINITION. The reference configuration of spec/95_test_vectors.md (R9, R10, R12, R161), for tests. No meaning reads it (R161, D24). -/

namespace Sys2Proof.Machine

/-- The reference registry (R161). Only 126992 is a number of the source; the other three are PRESUMED, from general
knowledge (G1 to G3; log entry 20). -/
def referenceClass (pgn : Pgn) : FrameClass :=
  if pgn = 126992#18 then .single
  else if pgn = 127250#18 then .single
  else if pgn = 129026#18 then .single
  else if pgn = 129284#18 then .fastPacket
  else .unknown

/-- A configuration with the reference registry, and any numbers in range. The spec gives no BOOL2_MAP, so none is given
here: no raw value is mapped. -/
def referenceWith (timeoutLessOne : Fin 65535) (maxFramesLessOne : Fin 255) (entriesLessOne : Fin 256) : Config where
  timeoutLessOne := timeoutLessOne
  maxFramesLessOne := maxFramesLessOne
  entriesLessOne := entriesLessOne
  pgnClass := referenceClass
  bool2Map := fun _ => none

/-- The reference configuration: `FP_TIMEOUT_TICKS = 3`, `FP_MAX_FRAMES = 32`, `FP_ENTRIES = 256` (R9, R10, R12). -/
def referenceConfig : Config := referenceWith 2 31 255

end Sys2Proof.Machine
end

