-- ==== Sys2Proof/Safety.lean ====
section
/-! DEFINITION. What a safe run is, in the terms that the claims use: the invariant of R25 to R31, the frames of R26 and R33, and runs of several commands. -/

namespace Sys2Proof.Machine

/-! ## The invariant -/

/-- What R25 says of an entry that stands in the table, and that every byte from the high-water up is 0x00. -/
structure Entry.Inv (c : Config) (e : Entry) : Prop where
  hw_low : 6 ≤ e.hw.toNat
  hw_high : e.hw.toNat ≤ bufBytes
  incomplete : e.hw.toNat < e.decl.toNat
  frames_low : 1 ≤ e.frames.toNat
  frames_high : e.frames.toNat < c.fpMaxFrames
  fresh : e.age.toNat < c.fpTimeoutTicks
  data_wf : Memory.wf e.data
  data_below : ∀ cell ∈ e.data, cell.1 < e.hw.toNat

/-- A length of at most 223 bytes, and a store in canonical form that is 0x00 from that length up (R27, R28, I16). -/
structure StoreInv (m : Memory) (len : BitVec 8) : Prop where
  len_high : len.toNat ≤ bufBytes
  wf : Memory.wf m
  below : ∀ cell ∈ m, cell.1 < len.toNat

/-- The invariant of the block's state: the table is in canonical form and within its capacity (R23), every entry is as R25
says, the message and the reader are in range (R27, R28, R132), and the packet assembler holds less than a packet (R31). -/
structure State.Inv (c : Config) (s : State) : Prop where
  table_wf : Table.wf s.fp
  table_room : s.fp.length ≤ c.fpEntries
  entries : ∀ p ∈ s.fp, Entry.Inv c p.2
  message : StoreInv s.msg.bytes s.msg.len
  reader : StoreInv s.rd.buf s.rd.len
  cursor : s.rd.cur.toNat ≤ 8 * s.rd.len.toNat
  assembler : decode s.pa = .error .incomplete

/-! ## Frames -/

/-- No entry of another source changes (R26). -/
def KeepsOtherSources (sa : SourceAddr) (s t : State) : Prop :=
  ∀ other, other ≠ sa → Table.find t.fp other = Table.find s.fp other

/-- The reader, the packet assembler and the inputs to come are unchanged. -/
def KeepsReaderAndInputs (s t : State) : Prop := t.rd = s.rd ∧ t.pa = s.pa ∧ t.cmdIn = s.cmdIn

/-- The message buffer holds the bytes that `byteAt` gives below `len`, and 0x00 from there up (R164). -/
def MessageIs (m : Message) (pgn : Pgn) (sa : SourceAddr) (len : Nat) (byteAt : Nat → Byte) : Prop :=
  m.pgn = pgn ∧ m.sa = sa ∧ m.len.toNat = len ∧ ∀ i, Memory.read m.bytes i = if i < len then byteAt i else 0#8

/-- The source address that an instruction names, if it names one (R26, R33). -/
def namedSource : Instr → Option SourceAddr
  | .iddec _ => none
  | .dispatch id _ _ => some (sourceAddress id)
  | .fpingest id _ _ => some (sourceAddress id)
  | .fpevict sa => some sa
  | .fpflush => none
  | .tick => none
  | .bfloadm => none
  | .bfloadi _ _ => none
  | .bftakeU _ => none
  | .bftakeS _ => none
  | .reserved0 => none
  | .reservedA => none
  | .reservedB => none
  | .reservedC => none
  | .reservedD => none
  | .reservedE => none
  | .reservedF => none
  | .bfskip _ => none
  | .ticks _ => none
  | .pdu2 _ => none
  | .pdu1 _ => none
  | .fpFirst id _ => some (sourceAddress id)
  | .fpCont id _ => some (sourceAddress id)

/-- The instructions that act on every entry (R26). -/
def actsOnEveryEntry (i : Instr) : Bool :=
  match i with
  | .fpflush => true
  | .tick => true
  | .ticks _ => true
  | _ => false

/-- The takes: BFTAKE.U, BFTAKE.S and BFSKIP. -/
def isTake (i : Instr) : Bool :=
  match i with
  | .bftakeU _ => true
  | .bftakeS _ => true
  | .bfskip _ => true
  | _ => false

/-- The loads: BFLOADM and BFLOADI. -/
def isLoad (i : Instr) : Bool :=
  match i with
  | .bfloadm => true
  | .bfloadi _ _ => true
  | _ => false

/-- The SBZ bits of a first word, by its opcode (R74 to R80). -/
def sbzMask (w0 : Word) : Word :=
  let op := w0.toNat / 2 ^ 28
  if op = 1 ∨ op = 5 ∨ op = 6 ∨ op = 7 then 0x0FFFFFFF#32
  else if op = 2 ∨ op = 3 ∨ op = 8 then 0x00FFFFFF#32
  else if op = 4 then 0x0FFFFF00#32
  else if op = 9 then 0x0FFFFF80#32
  else 0#32

/-! ## Runs -/

/-- Several instructions, one after another. -/
def execAll : List Instr → State → Host.Outcome State Fault Refusal
  | [], s => .next s
  | i :: is, s =>
    match exec i s with
    | .next t => execAll is t
    | .fault r => .fault r
    | .refused r => .refused r

end Sys2Proof.Machine
end

