-- ==== Sys2Proof/Certificates/Slice0/Obligations.lean ====
section
/-! DEFINITION. The statements about the block. Where a command reads a parameter of the build, the statement says that `exec` is the command at `Config.build`, and what the command does at EVERY configuration. -/

open Sys2Proof Sys2Proof.Machine

/-! ## Packets and encoding -/

/-- R94: every encoding example of the spec, both ways: the assembly assembles to the words, and the words decode to the
command. -/
def Obligations.SpecEncodingExamplesReadBothWays : Prop :=
  (assemble (.bftakeU 16) = some [0x90000010#32] ∧ decode [0x90000010#32] = .ok (.bftakeU 16#6)) ∧
  (assemble (.bftakeS 16) = some [0x90000050#32] ∧ decode [0x90000050#32] = .ok (.bftakeS 16#6)) ∧
  (assemble (.bftakeU 32) = some [0x90000020#32] ∧ decode [0x90000020#32] = .ok (.bftakeU 32#6)) ∧
  (assemble .bfloadm = some [0x70000000#32] ∧ decode [0x70000000#32] = .ok .bfloadm) ∧
  (assemble .tick = some [0x60000000#32] ∧ decode [0x60000000#32] = .ok .tick) ∧
  (assemble .fpflush = some [0x50000000#32] ∧ decode [0x50000000#32] = .ok .fpflush) ∧
  (assemble (.fpevict 0x23) = some [0x40000023#32] ∧ decode [0x40000023#32] = .ok (.fpevict 0x23#8)) ∧
  (assemble (.iddec 0x0DF01000) = some [0x10000000#32, 0x0DF01000#32] ∧
    decode [0x10000000#32, 0x0DF01000#32] = .ok (.iddec 0x0DF01000#29)) ∧
  (assemble (.dispatch 0x0DF01000 8 [46#8, 255#8, 169#8, 76#8, 48#8, 180#8, 171#8, 1#8])
      = some [0x28000000#32, 0x0DF01000#32, 0x4CA9FF2E#32, 0x01ABB430#32] ∧
    decode [0x28000000#32, 0x0DF01000#32, 0x4CA9FF2E#32, 0x01ABB430#32]
      = .ok (.dispatch 0x0DF01000#29 8#4 ⟨46#8, 255#8, 169#8, 76#8, 48#8, 180#8, 171#8, 1#8⟩)) ∧
  (assemble (.bfloadi 2 [0xFF#8, 0xFF#8]) = some [0x82000000#32, 0x0000FFFF#32, 0x00000000#32] ∧
    decode [0x82000000#32, 0x0000FFFF#32, 0x00000000#32] = .ok (.bfloadi 2#4 ⟨0xFF#8, 0xFF#8, 0, 0, 0, 0, 0, 0⟩))

/-- R73 to R81: for every command and every reserved opcode, decoding what the encoder writes gives the instruction back, at
every value of every operand, whatever words follow. -/
def Obligations.DecodeReadsBackEveryEncodedCommand : Prop :=
  ∀ (i : Instr) (rest : List Word), commandsOf i = [i] → decode (encode i ++ rest) = .ok i

/-- R93, and log entry 3 for the frame-space rows: an instruction assembles to the words of the commands it stands for, and
each of those is a command or a reserved opcode. -/
def Obligations.EveryInstructionAssemblesToCommands : Prop :=
  ∀ i : Instr, encode i = (commandsOf i).flatMap encode ∧ ∀ j ∈ commandsOf i, commandsOf j = [j]

/-- R95: the word count comes from `w0[31:28]` alone; a packet with fewer words is incomplete, and words after it are not
read. -/
def Obligations.PacketLengthComesFromTheOpcodeAlone : Prop :=
  ∀ (w0 : Word) (rest : List Word),
    let op := w0.toNat / 2 ^ 28
    let need := if op = 1 then 2 else if op = 2 ∨ op = 3 then 4 else if op = 8 then 3 else 1
    (decode (w0 :: rest) = .error .incomplete ↔ rest.length + 1 < need) ∧
    (need ≤ rest.length + 1 → decode (w0 :: rest) = decode ((w0 :: rest).take need))

/-- R75: the bits `w1[31:29]` of an identifier word never change what a packet decodes to. -/
def Obligations.IdentifierWordTopBitsAreIgnored : Prop :=
  ∀ (w0 w1 w1' : Word) (rest : List Word),
    (w0.toNat / 2 ^ 28 = 1 ∨ w0.toNat / 2 ^ 28 = 2 ∨ w0.toNat / 2 ^ 28 = 3) →
    w1.toNat % 2 ^ 29 = w1'.toNat % 2 ^ 29 → decode (w0 :: w1 :: rest) = decode (w0 :: w1' :: rest)

/-- R77: the payload bytes at an index of DLC (LEN) or more never change what a command does. -/
def Obligations.PayloadBytesPastTheCountAreIgnored : Prop :=
  ∀ (id : Ident) (k : BitVec 4) (d d' : Payload) (s : State),
    (∀ i, i < k.toNat → (payloadBytes d).getD i 0#8 = (payloadBytes d').getD i 0#8) →
    exec (.dispatch id k d) s = exec (.dispatch id k d') s ∧ exec (.fpingest id k d) s = exec (.fpingest id k d') s ∧
    exec (.bfloadi k d) s = exec (.bfloadi k d') s

/-- R73: no two rows of the opcode map match one first word, and a complete packet decodes to an instruction exactly when a
row matches its first word; that row has the instruction's mnemonic and the packet's length. -/
def Obligations.DecoderAgreesWithTheOpcodeMap : Prop :=
  opcodeRows.Pairwise (fun a b => ∀ w0 : Word, ¬ (a.matchesWord w0 = true ∧ b.matchesWord w0 = true)) ∧
  ∀ (w0 : Word) (rest : List Word), packetLength w0 ≤ rest.length + 1 →
    ((∃ i, decode (w0 :: rest) = .ok i) ↔ ∃ r ∈ opcodeRows, r.matchesWord w0 = true) ∧
    ∀ i, decode (w0 :: rest) = .ok i →
      ∃ r ∈ opcodeRows, r.matchesWord w0 = true ∧ r.mnemonic = i.mnemonic ∧ r.words = packetLength w0

/-- R84: a packet with a non-zero SBZ field is consumed whole, answers BAD_COMMAND with every other field 0, and changes
nothing else. The model's choice (log entry 4, DEDUCED): a complete packet whose SBZ bits are zero is never rejected by the
decoder, whatever its other bits are; where its opcode is reserved or an operand is illegal, it decodes to an instruction whose
meaning answers BAD_COMMAND (R82, R83). -/
def Obligations.NonZeroSbzFieldIsTurnedAway : Prop :=
  (∀ (s : State) (w w0 : Word) (ws : List Word) (ins : List PortInput),
    s.cmdIn = .word w :: ins → s.pa ++ [w] = w0 :: ws → (w0 :: ws).length = packetLength w0 → w0 &&& sbzMask w0 ≠ 0#32 →
    step s = .next { s with cmdIn := ins, pa := [], rspOut := s.rspOut ++ [⟨.badCommand, .unknown, 0#18, 0#8, 0#32⟩] }) ∧
  (∀ (w0 : Word) (ws : List Word), (w0 :: ws).length = packetLength w0 → w0 &&& sbzMask w0 = 0#32 →
    ∃ i, decode (w0 :: ws) = .ok i)

/-- R83, R245: each reserved opcode is a one-word packet, whatever its other bits are; it answers BAD_COMMAND with every other
field 0, and changes nothing but the packet assembler. -/
def Obligations.ReservedOpcodesAnswerBadCommand : Prop :=
  (∀ (i : Instr) (s : State),
    i ∈ [Instr.reserved0, .reservedA, .reservedB, .reservedC, .reservedD, .reservedE, .reservedF] →
    exec i s = .next { s with rspOut := s.rspOut ++ [⟨.badCommand, .unknown, 0#18, 0#8, 0#32⟩] }) ∧
  (∀ (s : State) (w : Word) (ins : List PortInput), s.pa = [] → s.cmdIn = .word w :: ins →
    (w.toNat / 2 ^ 28 = 0 ∨ 10 ≤ w.toNat / 2 ^ 28) →
    step s = .next { s with cmdIn := ins, rspOut := s.rspOut ++ [⟨.badCommand, .unknown, 0#18, 0#8, 0#32⟩] })

/-- R82: a command with DLC or LEN from 9 to 15, or a width of 0 or of 33 to 63, answers BAD_COMMAND with every other field 0
and changes nothing else; on the command port its whole packet is consumed. -/
def Obligations.IllegalOperandsAnswerBadCommand : Prop :=
  (∀ (id : Ident) (k : BitVec 4) (n : BitVec 6) (d : Payload) (s : State),
    let bad : State := { s with rspOut := s.rspOut ++ [⟨.badCommand, .unknown, 0#18, 0#8, 0#32⟩] }
    (9 ≤ k.toNat → exec (.dispatch id k d) s = .next bad ∧ exec (.fpingest id k d) s = .next bad ∧
      exec (.bfloadi k d) s = .next bad) ∧
    ((n.toNat = 0 ∨ 33 ≤ n.toNat) → exec (.bftakeU n) s = .next bad ∧ exec (.bftakeS n) s = .next bad ∧
      exec (.bfskip n) s = .next bad)) ∧
  (∀ (s : State) (w : Word) (ins : List PortInput) (i : Instr), s.cmdIn = .word w :: ins →
    decode (s.pa ++ [w]) = .ok i → i.wellFormed = false →
    step s = .next { s with cmdIn := ins, pa := [], rspOut := s.rspOut ++ [⟨.badCommand, .unknown, 0#18, 0#8, 0#32⟩] })

/-- R90, and the codes of R260 and I6: `resp0` and `resp1` hold the fields of a response at their bits, a host reads them back,
and it rejects the status codes that are never given. -/
def Obligations.ResponseWordsCarryTheResponse : Prop :=
  ([FrameClass.unknown, .single, .fastPacket].map classCode = [0#2, 1#2, 2#2] ∧
    [Status.ok, .decoded, .pending, .unknown, .seqMismatch, .parseError, .capacityExceeded, .stale, .badCommand].map statusCode
      = [0#4, 1#4, 2#4, 3#4, 4#4, 5#4, 6#4, 7#4, 8#4]) ∧
  (∀ r : Response,
    r.word0.toNat = (statusCode r.status).toNat * 2 ^ 28 + (classCode r.cls).toNat * 2 ^ 26 + r.pgn.toNat * 2 ^ 8 + r.sa.toNat ∧
    r.words = [r.word0, r.value] ∧ responseOfWords r.word0 r.value = some r) ∧
  (∀ w0 w1 : Word, 9 ≤ w0.toNat / 2 ^ 28 → responseOfWords w0 w1 = none)

/-- R92: an assembler refuses a value out of range instead of encoding it, and takes a byte list of exactly the count. What it
assembles has legal operands, the instruction holds the operands that the line gives, and of its eight payload bytes those that the
line omits are 0x00. The words are those of the instruction. -/
def Obligations.AssemblerRefusesOutOfRangeValues : Prop :=
  (∀ (l : AsmLine) (i : Instr), assembleLine l = some i → i.wellFormed = true ∧ assemble l = some (encode i)) ∧
  (∀ l : AsmLine, assembleLine l = none → assemble l = none) ∧
  (∀ (id k : Nat) (bytes : List Byte),
    (¬ (id < 2 ^ 29 ∧ k ≤ 8 ∧ bytes.length = k) →
      assembleLine (.dispatch id k bytes) = none ∧ assembleLine (.fpingest id k bytes) = none) ∧
    (id < 2 ^ 29 → k ≤ 8 → bytes.length = k → ∃ (x : Ident) (n : BitVec 4) (d : Payload), x.toNat = id ∧ n.toNat = k ∧
      (∀ i, (payloadBytes d).getD i 0#8 = bytes.getD i 0#8) ∧
      assembleLine (.dispatch id k bytes) = some (.dispatch x n d) ∧
      assembleLine (.fpingest id k bytes) = some (.fpingest x n d))) ∧
  (∀ (k : Nat) (bytes : List Byte),
    (¬ (k ≤ 8 ∧ bytes.length = k) → assembleLine (.bfloadi k bytes) = none) ∧
    (k ≤ 8 → bytes.length = k → ∃ (n : BitVec 4) (d : Payload), n.toNat = k ∧
      (∀ i, (payloadBytes d).getD i 0#8 = bytes.getD i 0#8) ∧ assembleLine (.bfloadi k bytes) = some (.bfloadi n d))) ∧
  (∀ n : Nat,
    (¬ (1 ≤ n ∧ n ≤ 32) →
      assembleLine (.bftakeU n) = none ∧ assembleLine (.bftakeS n) = none ∧ assembleLine (.bfskip n) = none) ∧
    (1 ≤ n → n ≤ 32 → ∃ w : BitVec 6, w.toNat = n ∧ assembleLine (.bftakeU n) = some (.bftakeU w) ∧
      assembleLine (.bftakeS n) = some (.bftakeS w) ∧ assembleLine (.bfskip n) = some (.bfskip w))) ∧
  (∀ id : Nat, (2 ^ 29 ≤ id → assembleLine (.iddec id) = none) ∧
    (id < 2 ^ 29 → ∃ x : Ident, x.toNat = id ∧ assembleLine (.iddec id) = some (.iddec x))) ∧
  (∀ sa : Nat, (256 ≤ sa → assembleLine (.fpevict sa) = none) ∧
    (sa < 256 → ∃ x : SourceAddr, x.toNat = sa ∧ assembleLine (.fpevict sa) = some (.fpevict x))) ∧
  (assembleLine .fpflush = some .fpflush ∧ assembleLine .tick = some .tick ∧ assembleLine .bfloadm = some .bfloadm ∧
    ∀ k : Nat, assembleLine (.ticks k) = some (.ticks k))

/-! ## Identifiers -/

/-- R113: the PGN of an identifier, as a number, under both formats; and which PGNs each format gives. -/
def Obligations.PgnFollowsTheAddressingFormat : Prop :=
  ∀ id : Ident,
    let dp := id.toNat / 2 ^ 24 % 4
    let pf := id.toNat / 2 ^ 16 % 256
    let ps := id.toNat / 2 ^ 8 % 256
    (pf < 240 → (pgnOf id).toNat = dp * 2 ^ 16 + pf * 2 ^ 8 ∧ (pgnOf id).toNat % 256 = 0 ∧ (pgnOf id).toNat / 2 ^ 12 % 16 ≠ 15) ∧
    (240 ≤ pf → (pgnOf id).toNat = dp * 2 ^ 16 + pf * 2 ^ 8 + ps ∧ (pgnOf id).toNat / 2 ^ 12 % 16 = 15)

/-- R115: IDDEC, and each row of the identifier space, completes for every identifier: it answers OK with the registry's class
of the PGN, the PGN, the source address, and the identifier with the format in bit 31; and it changes nothing. -/
def Obligations.IdentifierDecodeReportsEveryField : Prop :=
  ∀ (id : Ident) (s : State), ∃ r : Response,
    exec (.iddec id) s = .next { s with rspOut := s.rspOut ++ [r] } ∧
    (240 ≤ id.toNat / 2 ^ 16 % 256 → exec (.pdu2 id) s = .next { s with rspOut := s.rspOut ++ [r] }) ∧
    (id.toNat / 2 ^ 16 % 256 < 240 → exec (.pdu1 id) s = .next { s with rspOut := s.rspOut ++ [r] }) ∧
    r.status = .ok ∧ r.cls = Config.build.pgnClass r.pgn ∧ r.pgn = pgnOf id ∧ r.sa.toNat = id.toNat % 256 ∧
    r.value.toNat = id.toNat + (if id.toNat / 2 ^ 16 % 256 < 240 then 0 else 2 ^ 31)

/-! ## The bit-field reader -/

/-- R133 to R139: BFTAKE.U and BFSKIP complete when the flag is clear and enough bits remain. The value has fewer than `2^n`
values; bit by bit it is the consumed bits, most significant first, with the byte order reversed when the width is a multiple
of 8. The cursor moves `n` bits on, and nothing else changes. -/
def Obligations.UnsignedTakeReadsTheNextBits : Prop :=
  ∀ (n : BitVec 6) (s : State), 1 ≤ n.toNat → n.toNat ≤ 32 → s.rd.abort = false →
    s.rd.cur.toNat + n.toNat ≤ 8 * s.rd.len.toNat →
    ∃ (v : Word) (cur' : BitVec 11),
      let t : State := { s with
        rd := { s.rd with cur := cur' }, rspOut := s.rspOut ++ [⟨.ok, .unknown, 0#18, 0#8, v⟩] }
      exec (.bftakeU n) s = .next t ∧ exec (.bfskip n) s = .next t ∧
      cur'.toNat = s.rd.cur.toNat + n.toNat ∧ v.toNat < 2 ^ n.toNat ∧
      (n.toNat % 8 ≠ 0 → ∀ i, i < n.toNat → v.getLsbD (n.toNat - 1 - i) =
        (Memory.read s.rd.buf ((s.rd.cur.toNat + i) / 8)).getLsbD (7 - (s.rd.cur.toNat + i) % 8)) ∧
      (n.toNat % 8 = 0 → ∀ j b, j < n.toNat / 8 → b < 8 → v.getLsbD (8 * j + b) =
        (Memory.read s.rd.buf ((s.rd.cur.toNat + (8 * j + (7 - b))) / 8)).getLsbD
          (7 - (s.rd.cur.toNat + (8 * j + (7 - b))) % 8))

/-- R136, R137, R140: BFTAKE.S completes where BFTAKE.U does and moves the cursor alike. Its value has the low `n` bits that
BFTAKE.U gives, and every bit above them is bit `n-1` of it: the sign is taken after the bytes are reversed. -/
def Obligations.SignedTakeExtendsTheReorderedValue : Prop :=
  ∀ (n : BitVec 6) (s : State), 1 ≤ n.toNat → n.toNat ≤ 32 → s.rd.abort = false →
    s.rd.cur.toNat + n.toNat ≤ 8 * s.rd.len.toNat →
    ∃ (u v : Word) (cur' : BitVec 11),
      exec (.bftakeU n) s = .next { s with
        rd := { s.rd with cur := cur' }, rspOut := s.rspOut ++ [⟨.ok, .unknown, 0#18, 0#8, u⟩] } ∧
      exec (.bftakeS n) s = .next { s with
        rd := { s.rd with cur := cur' }, rspOut := s.rspOut ++ [⟨.ok, .unknown, 0#18, 0#8, v⟩] } ∧
      cur'.toNat = s.rd.cur.toNat + n.toNat ∧
      ∀ i, i < 32 → v.getLsbD i = if i < n.toNat then u.getLsbD i else u.getLsbD (n.toNat - 1)

/-- R138: a take of either form answers PARSE_ERROR when the flag is set or fewer bits remain than it asks for; the flag is set
and the cursor stays where it was. -/
def Obligations.FailedTakeSetsAbortAndKeepsTheCursor : Prop :=
  ∀ (n : BitVec 6) (s : State), 1 ≤ n.toNat → n.toNat ≤ 32 →
    (s.rd.abort = true ∨ 8 * s.rd.len.toNat < s.rd.cur.toNat + n.toNat) →
    ∀ i ∈ [Instr.bftakeU n, .bftakeS n, .bfskip n],
      exec i s = .next { s with
        rd := { s.rd with abort := true }, rspOut := s.rspOut ++ [⟨.parseError, .unknown, 0#18, 0#8, 0#32⟩] }

/-- R138: while the flag is set every take fails, whatever else is sent in between, until a load: over any run of instructions
that holds no load, the reader stays as it is, and each legal take in it answers PARSE_ERROR. -/
def Obligations.AbortIsStickyUntilALoad : Prop :=
  ∀ (is : List Instr) (s : State), s.rd.abort = true → (∀ i ∈ is, isLoad i = false) →
    ∃ t, execAll is s = .next t ∧ t.rd = s.rd ∧
      ∀ i, isTake i = true → i.wellFormed = true →
        exec i t = .next { t with rspOut := t.rspOut ++ [⟨.parseError, .unknown, 0#18, 0#8, 0#32⟩] }

/-- R141: BFLOADM completes in every state; the reader becomes a copy of the message at cursor 0 with the flag clear, and the
response carries the message's PGN, its source and its length in bits. -/
def Obligations.LoadMessageCopiesTheMessage : Prop :=
  ∀ s : State, ∃ v : Word,
    exec .bfloadm s = .next { s with
      rd := ⟨s.msg.bytes, s.msg.len, 0#11, false⟩, rspOut := s.rspOut ++ [⟨.ok, .unknown, s.msg.pgn, s.msg.sa, v⟩] } ∧
    v.toNat = 8 * s.msg.len.toNat

/-- R142: BFLOADI completes for LEN from 0 to 8; the reader holds the LEN bytes and 0x00 after them, at cursor 0 with the flag
clear, and the response carries the length in bits. -/
def Obligations.LoadInlineHoldsTheInlineBytes : Prop :=
  ∀ (k : BitVec 4) (d : Payload) (s : State), k.toNat ≤ 8 →
    ∃ (buf : Memory) (len : BitVec 8) (v : Word),
      exec (.bfloadi k d) s = .next { s with
        rd := ⟨buf, len, 0#11, false⟩, rspOut := s.rspOut ++ [⟨.ok, .unknown, 0#18, 0#8, v⟩] } ∧
      Memory.wf buf ∧ (∀ i, Memory.read buf i = if i < k.toNat then (payloadBytes d).getD i 0#8 else 0#8) ∧
      len.toNat = k.toNat ∧ v.toNat = 8 * k.toNat

/-- R143: nothing of the reader before a load survives it. The same load of the same bytes followed by the same takes gives the
same responses and the same reader, from any two states. -/
def Obligations.DecodingTheSameBytesGivesTheSameResults : Prop :=
  ∀ (load : Instr) (takes : List Instr) (s s' t t' : State), isLoad load = true → load.wellFormed = true →
    (∀ i ∈ takes, isTake i = true) →
    s.msg = s'.msg → execAll (load :: takes) s = .next t → execAll (load :: takes) s' = .next t' →
    t.rd = t'.rd ∧ ∃ out, t.rspOut = s.rspOut ++ out ∧ t'.rspOut = s'.rspOut ++ out ∧ out.length = takes.length + 1

/-- R180, R138: a field program of legal widths over a loaded reader gives a record exactly when enough bits remain for the
whole layout, and the record has one value for each field, a skipped field too (the model's choice, log entry 21). -/
def Obligations.RecordExistsWhenTheLayoutFits : Prop :=
  ∀ (fields : List Field) (rd : Reader), (∀ f ∈ fields, 1 ≤ f.width.toNat ∧ f.width.toNat ≤ 32) → rd.abort = false →
    rd.cur.toNat ≤ 8 * rd.len.toNat →
    ((readRecord fields rd).isSome = true ↔ rd.cur.toNat + layoutBits fields ≤ 8 * rd.len.toNat) ∧
    ∀ vs, readRecord fields rd = some vs → vs.length = fields.length

/-- R180: running a field program's commands gives the record, whatever widths its fields have. The record of the message exists
exactly when every take answers OK (for a field of an illegal width, whose take answers BAD_COMMAND, that is the model's choice,
log entry 22), and the takes then answer its values, in order, those of skipped fields too (the model's choice, log entry 21).
When the widths are legal and there is no record, the last take answers PARSE_ERROR. -/
def Obligations.FieldProgramRunsGiveTheRecord : Prop :=
  ∀ (fields : List Field) (s : State),
    ∃ (t : State) (first : Response) (out : List Response),
      execAll (fieldProgram fields) s = .next t ∧ t.rspOut = s.rspOut ++ first :: out ∧ first.status = .ok ∧
      out.length = fields.length ∧
      ((decodeMessage fields s.msg).isSome = true ↔ ∀ r ∈ out, r.status = .ok) ∧
      (∀ vs, decodeMessage fields s.msg = some vs → out = vs.map fun v => ⟨.ok, .unknown, 0#18, 0#8, v⟩) ∧
      ((∀ f ∈ fields, 1 ≤ f.width.toNat ∧ f.width.toNat ≤ 32) → decodeMessage fields s.msg = none →
        out.getLast? = some ⟨.parseError, .unknown, 0#18, 0#8, 0#32⟩)

/-- R181: the record of an 8-byte System Time message, in terms of its bytes; that it holds the value of the reserved field, third
in the list, is the model's choice (log entry 21). -/
def Obligations.SystemTimeRecordReadsItsLayout : Prop :=
  ∀ m : Message, m.len = 8#8 →
    ∃ vs : List Word, decodeMessage systemTime m = some vs ∧
      let b := fun i => (Memory.read m.bytes i).toNat
      vs.map BitVec.toNat = [b 0, b 1 / 16, b 1 % 16, b 2 + 256 * b 3,
        b 4 + 256 * b 5 + 65536 * b 6 + 16777216 * b 7]

/-- R182: the record of an 8-byte Vessel Heading message, with its two signed fields as integers. -/
def Obligations.VesselHeadingRecordReadsItsLayout : Prop :=
  ∀ m : Message, m.len = 8#8 →
    ∃ v0 v1 v2 v3 v4 : Word, decodeMessage vesselHeading m = some [v0, v1, v2, v3, v4] ∧
      let b := fun i => (Memory.read m.bytes i).toNat
      let signed := fun x : Nat => if x < 32768 then (x : Int) else (x : Int) - 65536
      v0.toNat = b 0 ∧ v1.toNat = b 1 + 256 * b 2 ∧ v2.toInt = signed (b 3 + 256 * b 4) ∧
      v3.toInt = signed (b 5 + 256 * b 6) ∧ v4.toNat = b 7 / 64

/-! ## Dispatch -/

/-- R162 to R166: DISPATCH completes for every DLC from 0 to 8, and the registry's class of the PGN decides: an unknown PGN
changes nothing and answers UNKNOWN; a single frame's DLC bytes are delivered as they stand; a fast-packet frame is ingested as
FPINGEST would. -/
def Obligations.DispatchRoutesByFrameClass : Prop :=
  (∀ (id : Ident) (k : BitVec 4) (d : Payload) (s : State), k.toNat ≤ 8 →
    exec (.dispatch id k d) s = .next (dispatchCommand Config.build id k d s)) ∧
  ∀ (c : Config) (id : Ident) (k : BitVec 4) (d : Payload) (s : State), k.toNat ≤ 8 →
    (c.pgnClass (pgnOf id) = .unknown → dispatchCommand c id k d s =
      { s with rspOut := s.rspOut ++ [⟨.unknown, .unknown, pgnOf id, sourceAddress id, 0#32⟩] }) ∧
    (c.pgnClass (pgnOf id) = .single → ∃ (m : Message) (v : Word), dispatchCommand c id k d s =
        { s with msg := m, rspOut := s.rspOut ++ [⟨.decoded, .single, pgnOf id, sourceAddress id, v⟩] } ∧
      v.toNat = k.toNat ∧
      MessageIs m (pgnOf id) (sourceAddress id) k.toNat (fun i => (payloadBytes d).getD i 0#8)) ∧
    (c.pgnClass (pgnOf id) = .fastPacket → dispatchCommand c id k d s = ingestCommand c id k d s)

/-! ## Fast-packet reassembly -/

/-- R202: a fast-packet frame with DLC from 0 to 7 answers PARSE_ERROR with value 0 and changes no state. -/
def Obligations.ShortFastPacketFrameIsAParseError : Prop :=
  (∀ (id : Ident) (k : BitVec 4) (d : Payload) (s : State), k.toNat ≤ 7 →
    exec (.fpingest id k d) s = .next { s with
      rspOut := s.rspOut ++ [⟨.parseError, .fastPacket, pgnOf id, sourceAddress id, 0#32⟩] }) ∧
  (∀ (c : Config) (id : Ident) (k : BitVec 4) (d : Payload) (s : State), k.toNat ≤ 7 →
    c.pgnClass (pgnOf id) = .fastPacket → dispatchCommand c id k d s = { s with
      rspOut := s.rspOut ++ [⟨.parseError, .fastPacket, pgnOf id, sourceAddress id, 0#32⟩] })

/-- R205: a first frame that declares at most 6 bytes completes at once: those bytes are delivered, the source is left Idle,
and the response is DECODED with the declared length. That the row FP_FIRST stands for FPINGEST of an 8-byte frame is the model's
choice (log entry 3). -/
def Obligations.ShortMessageIsDeliveredAtOnce : Prop :=
  ∀ (id : Ident) (d : Payload) (s : State), d.b0.toNat % 32 = 0 → d.b1.toNat ≤ 6 →
    ∃ (t : State) (v : Word), exec (.fpingest id 8#4 d) s = .next t ∧ exec (.fpFirst id d) s = .next t ∧
      Table.find t.fp (sourceAddress id) = none ∧ KeepsOtherSources (sourceAddress id) s t ∧ KeepsReaderAndInputs s t ∧
      MessageIs t.msg (pgnOf id) (sourceAddress id) d.b1.toNat (fun i => (payloadBytes d).getD (i + 2) 0#8) ∧
      t.rspOut = s.rspOut ++ [⟨.decoded, .fastPacket, pgnOf id, sourceAddress id, v⟩] ∧ v.toNat = d.b1.toNat

/-- R204, R206, R211: a first frame that declares 7 bytes or more, for a source that has an entry or in a table that is not full,
makes a new entry whatever entry the source held: the frame's PGN, sequence id, declared length and six bytes, high-water 6, one
frame, age 0, every other byte 0x00; PENDING. When the frame budget is 1 the source is left Idle and the response is
CAPACITY_EXCEEDED with value 0. The model's choices: the row FP_FIRST stands for FPINGEST of an 8-byte frame (log entry 3), and a
table of more than FP_ENTRIES entries, which no run reaches, is not full (log entry 11). -/
def Obligations.FirstFrameMakesANewEntry : Prop :=
  (∀ (id : Ident) (d : Payload) (s : State), d.b0.toNat % 32 = 0 →
    exec (.fpingest id 8#4 d) s = .next (ingestCommand Config.build id 8#4 d s) ∧
    exec (.fpFirst id d) s = .next (ingestCommand Config.build id 8#4 d s)) ∧
  ∀ (c : Config) (id : Ident) (d : Payload) (s : State), d.b0.toNat % 32 = 0 → 7 ≤ d.b1.toNat →
    (Table.find s.fp (sourceAddress id) ≠ none ∨ s.fp.length ≠ c.fpEntries) →
    let t := ingestCommand c id 8#4 d s
    KeepsOtherSources (sourceAddress id) s t ∧ KeepsReaderAndInputs s t ∧ t.msg = s.msg ∧
    (c.fpMaxFrames = 1 → Table.find t.fp (sourceAddress id) = none ∧
      t.rspOut = s.rspOut ++ [⟨.capacityExceeded, .fastPacket, pgnOf id, sourceAddress id, 0#32⟩]) ∧
    (2 ≤ c.fpMaxFrames → ∃ (e : Entry) (v : Word), Table.find t.fp (sourceAddress id) = some e ∧
      e.pgn = pgnOf id ∧ e.seq.toNat = d.b0.toNat / 32 ∧ e.decl = d.b1 ∧ e.hw = 6#8 ∧ e.frames = 1#8 ∧ e.age = 0#16 ∧
      (∀ i, Memory.read e.data i = if i < 6 then (payloadBytes d).getD (i + 2) 0#8 else 0#8) ∧
      t.rspOut = s.rspOut ++ [⟨.pending, .fastPacket, pgnOf id, sourceAddress id, v⟩] ∧
      v.toNat = d.b0.toNat / 32 * 65536 + d.b1.toNat * 256 + 6)

/-- R212: with the table full, a first frame that declares 7 bytes or more for a source that has no entry is dropped: the
response is CAPACITY_EXCEEDED with value 1 and no state changes. With 256 entries in a table in canonical form, no source is
without one. -/
def Obligations.FullTableRefusesANewSource : Prop :=
  (∀ t : Table, Table.wf t → t.length = 256 → ∀ sa, Table.find t sa ≠ none) ∧
  ∀ (c : Config) (id : Ident) (d : Payload) (s : State), d.b0.toNat % 32 = 0 → 7 ≤ d.b1.toNat →
    Table.find s.fp (sourceAddress id) = none → s.fp.length = c.fpEntries →
    ingestCommand c id 8#4 d s = { s with
      rspOut := s.rspOut ++ [⟨.capacityExceeded, .fastPacket, pgnOf id, sourceAddress id, 1#32⟩] }

/-- R208: a continuation frame with no entry for its source, or with another sequence id or another PGN than the entry, is
discarded: the response is SEQ_MISMATCH with the control byte, and no state changes (no count, no age). That the row FP_CONT
stands for FPINGEST of an 8-byte frame is the model's choice (log entry 3). -/
def Obligations.MismatchedContinuationChangesNothing : Prop :=
  ∀ (id : Ident) (d : Payload) (s : State), d.b0.toNat % 32 ≠ 0 →
    (∀ e, Table.find s.fp (sourceAddress id) = some e → e.seq.toNat ≠ d.b0.toNat / 32 ∨ e.pgn ≠ pgnOf id) →
    ∃ v : Word, v.toNat = d.b0.toNat ∧
      ∀ i ∈ [Instr.fpingest id 8#4 d, .fpCont id d], exec i s = .next { s with
        rspOut := s.rspOut ++ [⟨.seqMismatch, .fastPacket, pgnOf id, sourceAddress id, v⟩] }

/-- R207, R209, R210, R211, R244: an accepted continuation frame of index `k` puts its seven bytes at `6+(k-1)*7` and no byte
elsewhere, raises the high-water to at least `6+(k-1)*7+7`, counts one frame and sets the age to 0. If the high-water reaches the
declared length the message is delivered, truncated, and the source is Idle; otherwise, if the frame budget is reached the source
is Idle and the response is CAPACITY_EXCEEDED with value 0; otherwise the entry stands and the response is PENDING. That the row
FP_CONT stands for FPINGEST of an 8-byte frame is the model's choice (log entry 3). -/
def Obligations.AcceptedContinuationIsPlacedByItsIndex : Prop :=
  (∀ (id : Ident) (d : Payload) (s : State), d.b0.toNat % 32 ≠ 0 →
    exec (.fpingest id 8#4 d) s = .next (ingestCommand Config.build id 8#4 d s) ∧
    exec (.fpCont id d) s = .next (ingestCommand Config.build id 8#4 d s)) ∧
  ∀ (c : Config) (id : Ident) (d : Payload) (s : State) (e : Entry), d.b0.toNat % 32 ≠ 0 →
    Table.find s.fp (sourceAddress id) = some e → e.seq.toNat = d.b0.toNat / 32 → e.pgn = pgnOf id →
    ∃ e' : Entry,
      let t := ingestCommand c id 8#4 d s
      let off := 6 + (d.b0.toNat % 32 - 1) * 7
      off + 6 ≤ 222 ∧ e'.pgn = e.pgn ∧ e'.seq = e.seq ∧ e'.decl = e.decl ∧ e'.hw.toNat = max e.hw.toNat (off + 7) ∧
      e'.frames.toNat = min (e.frames.toNat + 1) 255 ∧ e'.age = 0#16 ∧
      (∀ i, Memory.read e'.data i =
        if off ≤ i ∧ i < off + 7 then (payloadBytes d).getD (i - off + 1) 0#8 else Memory.read e.data i) ∧
      KeepsOtherSources (sourceAddress id) s t ∧ KeepsReaderAndInputs s t ∧
      (e.decl.toNat ≤ e'.hw.toNat → ∃ v : Word, Table.find t.fp (sourceAddress id) = none ∧
        MessageIs t.msg (pgnOf id) (sourceAddress id) e.decl.toNat (Memory.read e'.data) ∧
        t.rspOut = s.rspOut ++ [⟨.decoded, .fastPacket, pgnOf id, sourceAddress id, v⟩] ∧ v.toNat = e.decl.toNat) ∧
      (e'.hw.toNat < e.decl.toNat → c.fpMaxFrames ≤ e'.frames.toNat → Table.find t.fp (sourceAddress id) = none ∧
        t.msg = s.msg ∧
        t.rspOut = s.rspOut ++ [⟨.capacityExceeded, .fastPacket, pgnOf id, sourceAddress id, 0#32⟩]) ∧
      (e'.hw.toNat < e.decl.toNat → e'.frames.toNat < c.fpMaxFrames → ∃ v : Word,
        Table.find t.fp (sourceAddress id) = some e' ∧ t.msg = s.msg ∧
        t.rspOut = s.rspOut ++ [⟨.pending, .fastPacket, pgnOf id, sourceAddress id, v⟩] ∧
        v.toNat = e.seq.toNat * 65536 + e.decl.toNat * 256 + e'.hw.toNat)

/-- R215: frames of different indices land alike in either order, and a repeated index overwrites its seven bytes and still
counts one frame. -/
def Obligations.ContinuationFramesPlaceInAnyOrder : Prop :=
  ∀ (e : Entry) (d d' : Payload), Memory.wf e.data → frameIndex d.b0 ≠ 0#5 → frameIndex d'.b0 ≠ 0#5 →
    (frameIndex d.b0 ≠ frameIndex d'.b0 → acceptFrame (acceptFrame e d) d' = acceptFrame (acceptFrame e d') d) ∧
    (frameIndex d.b0 = frameIndex d'.b0 → (acceptFrame (acceptFrame e d) d').data = (acceptFrame e d').data ∧
      (acceptFrame (acceptFrame e d) d').hw = (acceptFrame e d').hw ∧
      (acceptFrame (acceptFrame e d) d').frames.toNat = min (e.frames.toNat + 2) 255)

/-- R216: an entry that declares more than 223 bytes never completes: an 8-byte continuation frame for its source is never
answered with DECODED, the message stays, and an entry that still stands declares the same length with a high-water of at most
223. -/
def Obligations.OverlongDeclarationNeverCompletes : Prop :=
  ∀ (c : Config) (id : Ident) (d : Payload) (s : State) (e : Entry), d.b0.toNat % 32 ≠ 0 →
    Table.find s.fp (sourceAddress id) = some e → 224 ≤ e.decl.toNat → e.hw.toNat ≤ 223 →
    let t := ingestCommand c id 8#4 d s
    (∃ r, t.rspOut = s.rspOut ++ [r] ∧ r.status ≠ .decoded) ∧ t.msg = s.msg ∧
    ∀ e', Table.find t.fp (sourceAddress id) = some e' → e'.decl = e.decl ∧ e'.hw.toNat ≤ 223

/-! ## Reassembly control -/

/-- R241: FPEVICT completes in every state: a source that has an entry is left Idle and the response carries the entry's PGN and
1; for a source that has none the response carries PGN 0 and 0. Nothing else changes. -/
def Obligations.EvictDiscardsOneSource : Prop :=
  ∀ (sa : SourceAddr) (s : State), ∃ t, exec (.fpevict sa) s = .next t ∧
    Table.find t.fp sa = none ∧ KeepsOtherSources sa s t ∧ KeepsReaderAndInputs s t ∧ t.msg = s.msg ∧
    (∀ e, Table.find s.fp sa = some e → t.rspOut = s.rspOut ++ [⟨.ok, .unknown, e.pgn, sa, 1#32⟩]) ∧
    (Table.find s.fp sa = none → t.fp = s.fp ∧ t.rspOut = s.rspOut ++ [⟨.ok, .unknown, 0#18, sa, 0#32⟩])

/-- R242: FPFLUSH completes in every state whose table is in canonical form: the table is empty, and the response carries how
many entries there were. Nothing else changes. -/
def Obligations.FlushDiscardsEveryEntry : Prop :=
  ∀ s : State, Table.wf s.fp → ∃ v : Word, v.toNat = s.fp.length ∧
    exec .fpflush s = .next { s with fp := [], rspOut := s.rspOut ++ [⟨.ok, .unknown, 0#18, 0#8, v⟩] }

/-- R243: TICK completes; every entry gets one tick older, saturating, and is removed when it has reached the timeout; the
response is OK, or STALE with how many were removed. Nothing else changes. -/
def Obligations.TickAgesEveryEntry : Prop :=
  (∀ s : State, exec .tick s = .next (tickCommand Config.build s)) ∧
  ∀ (c : Config) (s : State), Table.wf s.fp →
    let t := tickCommand c s
    (∀ sa, Table.find s.fp sa = none → Table.find t.fp sa = none) ∧
    (∀ sa e, Table.find s.fp sa = some e →
      (c.fpTimeoutTicks ≤ min (e.age.toNat + 1) 65535 → Table.find t.fp sa = none) ∧
      (min (e.age.toNat + 1) 65535 < c.fpTimeoutTicks → ∃ e', Table.find t.fp sa = some e' ∧
        e'.age.toNat = min (e.age.toNat + 1) 65535 ∧ e = { e' with age := e.age })) ∧
    KeepsReaderAndInputs s t ∧ t.msg = s.msg ∧
    ∃ v : Word, v.toNat + t.fp.length = s.fp.length ∧
      t.rspOut = s.rspOut ++ [⟨if v = 0#32 then .ok else .stale, .unknown, 0#18, 0#8, v⟩]

/-- R93, R243, R244: `TICKS k` completes with `k` responses; an entry survives it exactly when its age and `k` stay below the
timeout, and is then `k` ticks older. Nothing but the table changes. -/
def Obligations.TicksTimeOutIdleEntries : Prop :=
  (∀ (k : Nat) (s : State), exec (.ticks k) s = .next (tickTimes Config.build k s)) ∧
  ∀ (c : Config) (k : Nat) (s : State), State.Inv c s →
    let t := tickTimes c k s
    (∀ sa, Table.find s.fp sa = none → Table.find t.fp sa = none) ∧
    (∀ sa e, Table.find s.fp sa = some e →
      (c.fpTimeoutTicks ≤ e.age.toNat + k → Table.find t.fp sa = none) ∧
      (e.age.toNat + k < c.fpTimeoutTicks → ∃ e', Table.find t.fp sa = some e' ∧
        e'.age.toNat = e.age.toNat + k ∧ e = { e' with age := e.age })) ∧
    KeepsReaderAndInputs s t ∧ t.msg = s.msg ∧ t.rspOut.length = s.rspOut.length + k

/-! ## The whole machine -/

/-- R261: no input stops the block: every step answers a next state, and so does every instruction. -/
def Obligations.NoInputStopsTheBlock : Prop :=
  (∀ s, ∃ t, step s = .next t) ∧ ∀ i s, ∃ t, exec i s = .next t

/-- R72: a step runs the decoded instruction. When the words in the packet assembler and the next word decode to an
instruction, the step empties the assembler, takes the word and is the instruction's meaning. -/
def Obligations.StepRunsTheDecodedInstruction : Prop :=
  ∀ (s : State) (w : Word) (ins : List PortInput) (i : Instr), s.cmdIn = .word w :: ins → decode (s.pa ++ [w]) = .ok i →
    step s = exec i { s with pa := [], cmdIn := ins }

/-- R31, R278: a word that does not complete a packet only goes into the packet assembler, and with no input nothing
happens. -/
def Obligations.PartialPacketOnlyFillsTheAssembler : Prop :=
  (∀ (s : State) (w : Word) (ins : List PortInput), s.cmdIn = .word w :: ins →
    decode (s.pa ++ [w]) = .error .incomplete → step s = .next { s with pa := s.pa ++ [w], cmdIn := ins }) ∧
  ∀ s : State, s.cmdIn = [] → step s = .next s

/-- R290, R291: reset puts every part of the block at its reset value, a partial packet is discarded, and no response is emitted.
The model's choices about its own two port fields: the newest responses, as many as the reset input says, do not reach the host
and all others do (log entry 7, for I14), and the inputs to come are kept (log entry 19). -/
def Obligations.ResetClearsTheBlock : Prop :=
  ∀ (s : State) (lost : Nat) (ins : List PortInput), s.cmdIn = .rst lost :: ins →
    ∃ t, step s = .next t ∧ t.fp = [] ∧ t.msg = ⟨0#18, 0#8, 0#8, []⟩ ∧ t.rd = ⟨[], 0#8, 0#11, false⟩ ∧ t.pa = [] ∧
      t.cmdIn = ins ∧ ∃ cut, t.rspOut ++ cut = s.rspOut ∧ cut.length = min lost s.rspOut.length

/-- R71: every complete packet gets exactly one response, after the earlier ones, and empties the packet assembler; a word that
completes none gets no response. -/
def Obligations.EveryPacketGetsExactlyOneResponse : Prop :=
  ∀ (s : State) (w : Word) (ins : List PortInput), s.cmdIn = .word w :: ins →
    ∃ t, step s = .next t ∧ t.cmdIn = ins ∧
      (decode (s.pa ++ [w]) = .error .incomplete → t.rspOut = s.rspOut) ∧
      (decode (s.pa ++ [w]) ≠ .error .incomplete → t.pa = [] ∧ ∃ r, t.rspOut = s.rspOut ++ [r])

/-- R72, R93: the words of an instruction, sent one a step from an empty packet assembler, do what the instruction's meaning
does: for the commands, the reserved opcodes, the pseudo-instructions and the frame-space rows, at every operand value. The words
and the meaning of a frame-space row are the model's choice (log entry 3). -/
def Obligations.SendingTheWordsRunsTheInstruction : Prop :=
  ∀ (i : Instr) (s : State) (ins : List PortInput), s.pa = [] →
    Host.Core.run Sys2Proof.core (encode i).length { s with cmdIn := (encode i).map PortInput.word ++ ins }
      = exec i { s with cmdIn := ins }

/-- R26, R214: an instruction that names a source address changes no other source's entry, and one that names none changes no
entry at all, but for FPFLUSH, TICK and TICKS. -/
def Obligations.OtherSourcesAreIsolated : Prop :=
  ∀ (i : Instr) (s t : State), exec i s = .next t → actsOnEveryEntry i = false →
    (∀ sa, namedSource i = some sa → KeepsOtherSources sa s t) ∧ (namedSource i = none → t.fp = s.fp)

/-- R26, R214: what a command that names a source does to that source's entry and to the message, and what it answers, depends
on the table only through that entry and through how many entries there are. -/
def Obligations.OwnEntryAloneDecidesTheOutcome : Prop :=
  ∀ (c : Config) (id : Ident) (k : BitVec 4) (d : Payload) (s s' : State),
    Table.find s.fp (sourceAddress id) = Table.find s'.fp (sourceAddress id) → s.fp.length = s'.fp.length → s.msg = s'.msg →
    ∀ f ∈ [dispatchCommand c id k d, ingestCommand c id k d, evictCommand (sourceAddress id)],
      Table.find (f s).fp (sourceAddress id) = Table.find (f s').fp (sourceAddress id) ∧ (f s).msg = (f s').msg ∧
      ∃ r : Response, (f s).rspOut = s.rspOut ++ [r] ∧ (f s').rspOut = s'.rspOut ++ [r]

/-- R27, R164: the message buffer changes only with a DECODED response, which then tells its PGN, its source and its length. -/
def Obligations.OnlyADeliveryWritesTheMessage : Prop :=
  ∀ (i : Instr) (s t : State), exec i s = .next t → (t.msg = s.msg ∧ ∀ r ∈ t.rspOut.drop s.rspOut.length, r.status ≠ .decoded) ∨
    ∃ r, t.rspOut = s.rspOut ++ [r] ∧ r.status = .decoded ∧ t.msg.pgn = r.pgn ∧ t.msg.sa = r.sa ∧
      t.msg.len.toNat = r.value.toNat

/-- R29, R144: only a take or a load changes the reader; a take keeps its bytes and its length, and never clears the flag; and
after a load the flag is clear and the cursor is 0, unless the load was turned away. -/
def Obligations.OnlyTakesAndLoadsWriteTheReader : Prop :=
  ∀ (i : Instr) (s t : State), exec i s = .next t →
    (isTake i = false → isLoad i = false → t.rd = s.rd) ∧
    (isTake i = true → t.rd.buf = s.rd.buf ∧ t.rd.len = s.rd.len ∧ (s.rd.abort = true → t.rd.abort = true)) ∧
    (isLoad i = true → i.wellFormed = true → t.rd.abort = false ∧ t.rd.cur = 0#11)

/-- R262: what each error changes. BAD_COMMAND and SEQ_MISMATCH change nothing; PARSE_ERROR sets the flag and nothing else for a
take, and changes nothing for any other instruction; CAPACITY_EXCEEDED changes nothing but the table, where its own source has no
entry afterwards and every other source keeps its own; STALE changes nothing but the table, from which the entries that timed out
are gone, while every other entry is one tick older (R243) and no source gets an entry. -/
def Obligations.ErrorsChangeOnlyWhatTheirRuleSays : Prop :=
  ∀ (i : Instr) (s t : State) (r : Response), exec i s = .next t → t.rspOut = s.rspOut ++ [r] →
    (r.status = .badCommand ∨ r.status = .seqMismatch → t = { s with rspOut := t.rspOut }) ∧
    (r.status = .parseError → t =
      if isTake i then { s with rd := { s.rd with abort := true }, rspOut := t.rspOut } else { s with rspOut := t.rspOut }) ∧
    (r.status = .capacityExceeded → t = { s with fp := t.fp, rspOut := t.rspOut } ∧ Table.find t.fp r.sa = none ∧
      KeepsOtherSources r.sa s t) ∧
    (r.status = .stale → t = { s with fp := t.fp, rspOut := t.rspOut } ∧ (Table.wf s.fp →
      ∀ sa, Table.find t.fp sa = (Table.find s.fp sa).bind fun e =>
        if Config.build.fpTimeoutTicks ≤ min (e.age.toNat + 1) 65535 then none
        else some { e with age := BitVec.ofNat 16 (min (e.age.toNat + 1) 65535) }))

/-- R23, R25, R27, R28, R31, R132: the invariant of the block's state is kept by every step, from every state that has it:
the table is a map within its capacity; every entry has `6 <= hw <= 223`, `hw < decl`, `1 <= frames < FP_MAX_FRAMES`,
`age < FP_TIMEOUT_TICKS` and 0x00 from the high-water up; the message and the reader are in range; the cursor is within the
reader's bits; and the packet assembler holds less than a packet. -/
def Obligations.EveryStepKeepsTheInvariant : Prop :=
  ∀ s t : State, State.Inv Config.build s → step s = .next t → State.Inv Config.build t

/-- R32: the invariant holds after reset, at every configuration. -/
def Obligations.ResetStateHasTheInvariant : Prop := ∀ c : Config, State.Inv c State.reset

/-- R32: every part of the block after reset. -/
def Obligations.ResetStateHasTheSpecsValues : Prop :=
  (∀ sa, Table.find State.reset.fp sa = none) ∧
  (State.reset.msg.pgn = 0#18 ∧ State.reset.msg.sa = 0#8 ∧ State.reset.msg.len = 0#8 ∧
    ∀ i, Memory.read State.reset.msg.bytes i = 0#8) ∧
  ((∀ i, Memory.read State.reset.rd.buf i = 0#8) ∧ State.reset.rd.len = 0#8 ∧ State.reset.rd.cur = 0#11 ∧
    State.reset.rd.abort = false) ∧ State.reset.pa = []

/-! ## The consumer's mappings -/

/-- R186: which field of the four layouts has which scale, exactly: six angles in radians are a ten-thousandth of the raw value,
two speeds in metres per second a hundredth, two times of day in seconds a ten-thousandth, two dates in days the raw value itself;
and no other field is a quantity. The raw value of deviation and variation is signed (R182), that of every other field unsigned. -/
def Obligations.EveryScaledFieldHasItsUnit : Prop :=
  ∀ (c : Config) (f : Field) (v : Word), f ∈ systemTime ++ vesselHeading ++ cogSogRapidUpdate ++ navigationData →
    let r : Rat := (f.integer v : Rat)
    let angles := ["heading", "deviation", "variation", "cog", "bearing-origin-to-destination", "bearing-origin-to-waypoint"]
    let speeds := ["sog", "waypoint-closing-velocity"]
    let times := ["time-since-midnight", "eta-time"]
    let dates := ["date", "eta-date"]
    f.integer v = (if f.name = "deviation" ∨ f.name = "variation" then v.toInt else (v.toNat : Int)) ∧
    (f.name ∈ angles → f.reading c v = .quantity (r / 10000) .radian) ∧
    (f.name ∈ speeds → f.reading c v = .quantity (r / 100) .metrePerSecond) ∧
    (f.name ∈ times → f.reading c v = .quantity (r / 10000) .second) ∧
    (f.name ∈ dates → f.reading c v = .quantity r .day) ∧
    (f.name ∉ angles ++ speeds ++ times ++ dates → ∀ q u, f.reading c v ≠ .quantity q u)

/-- R185, R187: the reading of an enumeration field is the label of its raw value, or the raw value itself as data where no label
maps it; the reading of a "2→bool" field is what `BOOL2_MAP` gives, whatever it is. The raw values of the labels of time-source and calc-type are
PRESUMED (log entry 14), and the one case for every value without a label is the model's choice (log entry 23). -/
def Obligations.EnumerationValuesAreData : Prop :=
  ∀ (c : Config) (f : Field) (v : Word), f ∈ systemTime ++ vesselHeading ++ cogSogRapidUpdate ++ navigationData →
    let labels := if f.name = "time-source" then
        ["GPS", "GLONASS", "RadioStation", "LocalCesium", "LocalRubidium", "LocalCrystal"]
      else if f.name = "calc-type" then ["GreatCircle", "Rhumbline"] else ["unspecified", "True", "Magnetic", "Error"]
    (f.name ∈ ["time-source", "calc-type", "reference", "cog-reference", "bearing-reference"] →
      (∀ l, labels[v.toNat]? = some l → f.reading c v = .enumeration (.label l)) ∧
      (labels.length ≤ v.toNat → f.reading c v = .enumeration (.unmapped v.toNat))) ∧
    (f.name ∈ ["perpendicular-crossed", "arrival-circle-entered"] →
      ∀ raw : BitVec 2, v.toNat = raw.toNat → f.reading c v = .truth (c.bool2Map raw))
end

