-- ==== Sys2Proof/Laws/Assembler.lean ====
section
/-! SUPPORT. The payload that the assembler makes of a byte list (R92). -/

namespace Sys2Proof.Machine

/-- The payload holds the bytes of the list at their indices, and 0x00 at every other. -/
theorem payloadBytes_payloadOf {bytes : List Byte} (h : bytes.length ≤ 8) (i : Nat) :
    (payloadBytes (payloadOf bytes)).getD i 0#8 = bytes.getD i 0#8 := by
  by_cases hi : i < 8
  · interval_cases i <;> rfl
  · have h1 : (payloadBytes (payloadOf bytes)).length ≤ i := by
      show 8 ≤ i
      omega
    simp only [List.getD, List.getElem?_eq_none h1, List.getElem?_eq_none (show bytes.length ≤ i by omega)]

end Sys2Proof.Machine
end

