-- ==== Sys2Proof/Laws/State.lean ====
section
/-! SUPPORT. One lemma for each field of State and each update of it. -/

namespace Sys2Proof.Machine

variable (s : State)

@[simp] theorem State.setFp_fp (t : Table) : (s.setFp t).fp = t := rfl
@[simp] theorem State.setFp_msg (t : Table) : (s.setFp t).msg = s.msg := rfl
@[simp] theorem State.setFp_rd (t : Table) : (s.setFp t).rd = s.rd := rfl
@[simp] theorem State.setFp_pa (t : Table) : (s.setFp t).pa = s.pa := rfl
@[simp] theorem State.setFp_cmdIn (t : Table) : (s.setFp t).cmdIn = s.cmdIn := rfl
@[simp] theorem State.setFp_rspOut (t : Table) : (s.setFp t).rspOut = s.rspOut := rfl

@[simp] theorem State.setRd_fp (r : Reader) : (s.setRd r).fp = s.fp := rfl
@[simp] theorem State.setRd_msg (r : Reader) : (s.setRd r).msg = s.msg := rfl
@[simp] theorem State.setRd_rd (r : Reader) : (s.setRd r).rd = r := rfl
@[simp] theorem State.setRd_pa (r : Reader) : (s.setRd r).pa = s.pa := rfl
@[simp] theorem State.setRd_cmdIn (r : Reader) : (s.setRd r).cmdIn = s.cmdIn := rfl
@[simp] theorem State.setRd_rspOut (r : Reader) : (s.setRd r).rspOut = s.rspOut := rfl

@[simp] theorem State.setPa_fp (ws : List Word) : (s.setPa ws).fp = s.fp := rfl
@[simp] theorem State.setPa_msg (ws : List Word) : (s.setPa ws).msg = s.msg := rfl
@[simp] theorem State.setPa_rd (ws : List Word) : (s.setPa ws).rd = s.rd := rfl
@[simp] theorem State.setPa_pa (ws : List Word) : (s.setPa ws).pa = ws := rfl
@[simp] theorem State.setPa_cmdIn (ws : List Word) : (s.setPa ws).cmdIn = s.cmdIn := rfl
@[simp] theorem State.setPa_rspOut (ws : List Word) : (s.setPa ws).rspOut = s.rspOut := rfl

@[simp] theorem State.setCmdIn_fp (ins : List PortInput) : (s.setCmdIn ins).fp = s.fp := rfl
@[simp] theorem State.setCmdIn_msg (ins : List PortInput) : (s.setCmdIn ins).msg = s.msg := rfl
@[simp] theorem State.setCmdIn_rd (ins : List PortInput) : (s.setCmdIn ins).rd = s.rd := rfl
@[simp] theorem State.setCmdIn_pa (ins : List PortInput) : (s.setCmdIn ins).pa = s.pa := rfl
@[simp] theorem State.setCmdIn_cmdIn (ins : List PortInput) : (s.setCmdIn ins).cmdIn = ins := rfl
@[simp] theorem State.setCmdIn_rspOut (ins : List PortInput) : (s.setCmdIn ins).rspOut = s.rspOut := rfl

@[simp] theorem State.respond_fp (r : Response) : (s.respond r).fp = s.fp := rfl
@[simp] theorem State.respond_msg (r : Response) : (s.respond r).msg = s.msg := rfl
@[simp] theorem State.respond_rd (r : Response) : (s.respond r).rd = s.rd := rfl
@[simp] theorem State.respond_pa (r : Response) : (s.respond r).pa = s.pa := rfl
@[simp] theorem State.respond_cmdIn (r : Response) : (s.respond r).cmdIn = s.cmdIn := rfl
@[simp] theorem State.respond_rspOut (r : Response) : (s.respond r).rspOut = s.rspOut ++ [r] := rfl

@[simp] theorem State.deliver_fp (pgn : Pgn) (sa : SourceAddr) (len : BitVec 8) (m : Memory) : (s.deliver pgn sa len m).fp = s.fp := rfl
@[simp] theorem State.deliver_msg (pgn : Pgn) (sa : SourceAddr) (len : BitVec 8) (m : Memory) : (s.deliver pgn sa len m).msg = ⟨pgn, sa, len, Memory.truncate m len.toNat⟩ := rfl
@[simp] theorem State.deliver_rd (pgn : Pgn) (sa : SourceAddr) (len : BitVec 8) (m : Memory) : (s.deliver pgn sa len m).rd = s.rd := rfl
@[simp] theorem State.deliver_pa (pgn : Pgn) (sa : SourceAddr) (len : BitVec 8) (m : Memory) : (s.deliver pgn sa len m).pa = s.pa := rfl
@[simp] theorem State.deliver_cmdIn (pgn : Pgn) (sa : SourceAddr) (len : BitVec 8) (m : Memory) : (s.deliver pgn sa len m).cmdIn = s.cmdIn := rfl
@[simp] theorem State.deliver_rspOut (pgn : Pgn) (sa : SourceAddr) (len : BitVec 8) (m : Memory) : (s.deliver pgn sa len m).rspOut = s.rspOut := rfl

@[simp] theorem State.respondBadCommand_fp : s.respondBadCommand.fp = s.fp := rfl
@[simp] theorem State.respondBadCommand_msg : s.respondBadCommand.msg = s.msg := rfl
@[simp] theorem State.respondBadCommand_rd : s.respondBadCommand.rd = s.rd := rfl
@[simp] theorem State.respondBadCommand_pa : s.respondBadCommand.pa = s.pa := rfl
@[simp] theorem State.respondBadCommand_cmdIn : s.respondBadCommand.cmdIn = s.cmdIn := rfl
@[simp] theorem State.respondBadCommand_rspOut : s.respondBadCommand.rspOut = s.rspOut ++ [badCommandResponse] := rfl

@[simp] theorem State.applyReset_fp (lost : Nat) : (s.applyReset lost).fp = [] := rfl
@[simp] theorem State.applyReset_msg (lost : Nat) : (s.applyReset lost).msg = Message.empty := rfl
@[simp] theorem State.applyReset_rd (lost : Nat) : (s.applyReset lost).rd = Reader.empty := rfl
@[simp] theorem State.applyReset_pa (lost : Nat) : (s.applyReset lost).pa = [] := rfl
@[simp] theorem State.applyReset_cmdIn (lost : Nat) : (s.applyReset lost).cmdIn = s.cmdIn := rfl
@[simp] theorem State.applyReset_rspOut (lost : Nat) : (s.applyReset lost).rspOut = s.rspOut.take (s.rspOut.length - lost) := rfl

end Sys2Proof.Machine
end

