-- ==== Sys2Proof/Laws/Reader.lean ====
section
/-! SUPPORT. The laws of the take function (R131 to R138): the assembled value and the reordered value bit by bit, and what a take does. -/

namespace Sys2Proof.Machine

/-! ## The assembled value -/

@[simp] theorem assembleBits_zero (rd : Reader) : assembleBits rd 0 = 0 := rfl

/-- One more bit consumed: it becomes the lowest bit (R133). -/
theorem assembleBits_succ (rd : Reader) (n : Nat) :
    assembleBits rd (n + 1) = 2 * assembleBits rd n + (bitAt rd (rd.cur.toNat + n)).toNat := by
  have hterm : ∀ i ∈ List.range n, (bitAt rd (rd.cur.toNat + i)).toNat <<< (n + 1 - 1 - i)
      = 2 * ((bitAt rd (rd.cur.toNat + i)).toNat <<< (n - 1 - i)) := by
    intro i hi
    have hi' := List.mem_range.1 hi
    have : n + 1 - 1 - i = (n - 1 - i) + 1 := by omega
    rw [this, Nat.shiftLeft_succ]
  unfold assembleBits
  rw [List.range_succ, List.map_append, List.sum_append, List.map_congr_left hterm, List.sum_map_mul_left]
  simp

theorem assembleBits_lt (rd : Reader) (n : Nat) : assembleBits rd n < 2 ^ n := by
  induction n with
  | zero => simp
  | succ n ih =>
    have := Bool.toNat_lt (bitAt rd (rd.cur.toNat + n))
    rw [assembleBits_succ, Nat.pow_succ]
    omega

/-- The `i`-th bit consumed is bit `n-1-i` of the assembled value (R133). -/
theorem testBit_assembleBits (rd : Reader) {n i : Nat} (hi : i < n) :
    (assembleBits rd n).testBit (n - 1 - i) = bitAt rd (rd.cur.toNat + i) := by
  induction n with
  | zero => omega
  | succ n ih =>
    rw [assembleBits_succ]
    by_cases h : i = n
    · subst h
      have : i + 1 - 1 - i = 0 := by omega
      rw [this, Nat.testBit_zero]
      cases bitAt rd (rd.cur.toNat + i) <;> simp
    · have : n + 1 - 1 - i = (n - 1 - i) + 1 := by omega
      rw [this, Nat.testBit_succ, ← ih (by omega)]
      congr 1
      have := Bool.toNat_lt (bitAt rd (rd.cur.toNat + n))
      omega

/-! ## The reordered value -/

/-- A sum of bytes, each at its own place. -/
def byteSum (digit : Nat → Nat) (k : Nat) : Nat := ((List.range k).map fun j => digit j <<< (8 * j)).sum

theorem byteSum_succ (digit : Nat → Nat) (k : Nat) : byteSum digit (k + 1) = digit k * 2 ^ (8 * k) + byteSum digit k := by
  unfold byteSum
  rw [List.range_succ, List.map_append, List.sum_append]
  simp [Nat.shiftLeft_eq, Nat.add_comm]

theorem byteSum_lt {digit : Nat → Nat} (hd : ∀ j, digit j < 256) (k : Nat) : byteSum digit k < 2 ^ (8 * k) := by
  induction k with
  | zero => simp [byteSum]
  | succ k ih =>
    have h8 : 2 ^ (8 * (k + 1)) = 256 * 2 ^ (8 * k) := by rw [Nat.mul_add, Nat.pow_add]; omega
    have hk : digit k * 2 ^ (8 * k) ≤ 255 * 2 ^ (8 * k) := Nat.mul_le_mul_right _ (Nat.le_of_lt_succ (hd k))
    rw [byteSum_succ, h8]
    omega

theorem testBit_byteSum {digit : Nat → Nat} (hd : ∀ j, digit j < 256) {k j b : Nat} (hj : j < k) (hb : b < 8) :
    (byteSum digit k).testBit (8 * j + b) = (digit j).testBit b := by
  induction k with
  | zero => omega
  | succ k ih =>
    rw [byteSum_succ, Nat.mul_comm (digit k)]
    by_cases h : j = k
    · subst h
      rw [Nat.testBit_two_pow_mul_add _ (byteSum_lt hd j)]
      have h1 : ¬ 8 * j + b < 8 * j := by omega
      have h2 : 8 * j + b - 8 * j = b := by omega
      rw [if_neg h1, h2]
    · have h1 : 8 * j + b < 8 * k := by omega
      rw [Nat.testBit_two_pow_mul_add _ (byteSum_lt hd k), if_pos h1, ih (by omega)]

theorem reorderBytes_of_mul {raw n : Nat} (h : n % 8 = 0) :
    reorderBytes raw n = byteSum (fun j => (raw >>> (8 * (n / 8 - 1 - j))) % 256) (n / 8) := by
  unfold reorderBytes byteSum
  rw [if_pos h]

theorem reorderBytes_of_not_mul {raw n : Nat} (h : n % 8 ≠ 0) : reorderBytes raw n = raw := if_neg h

theorem reorderBytes_lt {raw n : Nat} (h : raw < 2 ^ n) : reorderBytes raw n < 2 ^ n := by
  by_cases hn : n % 8 = 0
  · rw [reorderBytes_of_mul hn]
    have := byteSum_lt (digit := fun j => (raw >>> (8 * (n / 8 - 1 - j))) % 256) (fun j => Nat.mod_lt _ (by omega)) (n / 8)
    have h8 : 8 * (n / 8) = n := by omega
    rwa [h8] at this
  · rwa [reorderBytes_of_not_mul hn]

/-- Byte `j` of the reordered value is byte `k-1-j` of the raw one (R134). -/
theorem testBit_reorderBytes {raw n j b : Nat} (hn : n % 8 = 0) (hj : j < n / 8) (hb : b < 8) :
    (reorderBytes raw n).testBit (8 * j + b) = raw.testBit (8 * (n / 8 - 1 - j) + b) := by
  rw [reorderBytes_of_mul hn, testBit_byteSum (fun j => Nat.mod_lt _ (by omega)) hj hb]
  have h256 : (256 : Nat) = 2 ^ 8 := rfl
  rw [h256, Nat.testBit_mod_two_pow, Nat.testBit_shiftRight]
  simp [hb]

/-! ## What a take does -/

/-- The value that a take of `n` bits reads, before it is widened (R137). -/
def takenValue (rd : Reader) (n : Nat) : Nat := reorderBytes (assembleBits rd n) n

theorem takenValue_lt (rd : Reader) (n : Nat) : takenValue rd n < 2 ^ n := reorderBytes_lt (assembleBits_lt rd n)

theorem takenValue_bit {rd : Reader} {n i : Nat} (hn : n % 8 ≠ 0) (hi : i < n) :
    (takenValue rd n).testBit (n - 1 - i) = bitAt rd (rd.cur.toNat + i) := by
  rw [takenValue, reorderBytes_of_not_mul hn, testBit_assembleBits rd hi]

theorem takenValue_byte_bit {rd : Reader} {n j b : Nat} (hn : n % 8 = 0) (hj : j < n / 8) (hb : b < 8) :
    (takenValue rd n).testBit (8 * j + b) = bitAt rd (rd.cur.toNat + (8 * j + (7 - b))) := by
  have hi : 8 * j + (7 - b) < n := by omega
  rw [takenValue, testBit_reorderBytes hn hj hb, ← testBit_assembleBits rd hi]
  congr 1
  omega

/-- A take that fails (R137, R138). -/
theorem takeField_fails {rd : Reader} {n : Nat} {form : TakeForm} (h : takeFails rd n = true) :
    takeField rd n form = (none, setAbort rd) := by simp [takeField, h]

/-- A take that succeeds (R137). -/
theorem takeField_succeeds {rd : Reader} {n : Nat} {form : TakeForm} (h : takeFails rd n = false) :
    takeField rd n form
      = (some (widenTaken form (takenValue rd n) n), { rd with cur := BitVec.ofNat 11 (rd.cur.toNat + n) }) := by
  simp [takeField, h, takenValue]

theorem takeFails_eq_false {rd : Reader} {n : Nat} (hn : 1 ≤ n) :
    takeFails rd n = false ↔ rd.abort = false ∧ rd.cur.toNat + n ≤ 8 * rd.len.toNat := by
  unfold takeFails bitsRemaining
  simp only [Bool.or_eq_false_iff, decide_eq_false_iff_not]
  refine and_congr_right fun _ => ?_
  omega

theorem takeFails_eq_true {rd : Reader} {n : Nat} (hn : 1 ≤ n) :
    takeFails rd n = true ↔ rd.abort = true ∨ 8 * rd.len.toNat < rd.cur.toNat + n := by
  unfold takeFails bitsRemaining
  simp only [Bool.or_eq_true, decide_eq_true_eq]
  refine or_congr_right ?_
  omega

/-- The cursor after a take that succeeds does not wrap: a reader has at most 2040 bits. -/
theorem cursor_after_take {rd : Reader} {n : Nat} (h : rd.cur.toNat + n ≤ 8 * rd.len.toNat) :
    (BitVec.ofNat 11 (rd.cur.toNat + n)).toNat = rd.cur.toNat + n := by
  have := rd.len.isLt
  rw [BitVec.toNat_ofNat]
  omega

@[simp] theorem setAbort_buf (rd : Reader) : (setAbort rd).buf = rd.buf := rfl
@[simp] theorem setAbort_len (rd : Reader) : (setAbort rd).len = rd.len := rfl
@[simp] theorem setAbort_cur (rd : Reader) : (setAbort rd).cur = rd.cur := rfl
@[simp] theorem setAbort_abort (rd : Reader) : (setAbort rd).abort = true := rfl

theorem setAbort_of_abort {rd : Reader} (h : rd.abort = true) : setAbort rd = rd := by
  obtain ⟨buf, len, cur, abort⟩ := rd
  simp_all [setAbort]

/-! ## Widening -/

theorem widenTaken_unsigned_getLsbD {v n i : Nat} (hv : v < 2 ^ n) (hn : n ≤ 32) :
    (widenTaken .unsigned v n).getLsbD i = v.testBit i := by
  simp only [widenTaken, BitVec.getLsbD_ofNat]
  by_cases h : i < 32
  · simp [h]
  · have : v.testBit i = false :=
      Nat.testBit_lt_two_pow (lt_of_lt_of_le hv (Nat.pow_le_pow_right (by omega) (by omega)))
    simp [h, this]

theorem widenTaken_signed_getLsbD {v n i : Nat} (h1 : 1 ≤ n) (hn : n ≤ 32) (hi : i < 32) :
    (widenTaken .signed v n).getLsbD i = if i < n then v.testBit i else v.testBit (n - 1) := by
  simp only [widenTaken, BitVec.getLsbD_signExtend, BitVec.getLsbD_ofNat, BitVec.msb_eq_getLsbD_last]
  have : n - 1 < n := by omega
  by_cases h : i < n <;> simp [hi, h, this]

/-- Everything that BFTAKE can do: a width that is turned away, a take that fails, or a take that succeeds. -/
theorem takeCommand_cases (n : BitVec 6) (form : TakeForm) (s : State) :
    (legalWidth n = false ∧ takeCommand n form s = s.respondBadCommand) ∨
    (legalWidth n = true ∧ takeFails s.rd n.toNat = true ∧
      takeCommand n form s = (s.setRd (setAbort s.rd)).respond ⟨.parseError, .unknown, 0#18, 0#8, 0#32⟩) ∨
    (legalWidth n = true ∧ takeFails s.rd n.toNat = false ∧
      takeCommand n form s = (s.setRd { s.rd with cur := BitVec.ofNat 11 (s.rd.cur.toNat + n.toNat) }).respond
        ⟨.ok, .unknown, 0#18, 0#8, widenTaken form (takenValue s.rd n.toNat) n.toNat⟩) := by
  unfold takeCommand
  by_cases hl : legalWidth n = true
  · by_cases hf : takeFails s.rd n.toNat = true
    · exact .inr (.inl ⟨hl, hf, by simp [hl, takeField_fails hf]⟩)
    · have hf' : takeFails s.rd n.toNat = false := by simpa using hf
      exact .inr (.inr ⟨hl, hf', by simp [hl, takeField_succeeds hf']⟩)
  · exact .inl ⟨by simpa using hl, by simp [hl]⟩

theorem legalWidth_iff {n : BitVec 6} : legalWidth n = true ↔ 1 ≤ n.toNat ∧ n.toNat ≤ 32 := by simp [legalWidth]

end Sys2Proof.Machine
end

