-- ==== Sys2Proof/Laws/Step.lean ====
section
/-! SUPPORT. What exec answers for each instruction, and what a step does with each input. -/

namespace Sys2Proof.Machine

variable (s : State)

/-! ## exec, instruction by instruction -/

@[simp] theorem exec_iddec (id : Ident) : exec (.iddec id) s = .next (identCommand Config.build id s) := rfl
@[simp] theorem exec_dispatch (id : Ident) (dlc : BitVec 4) (data : Payload) :
    exec (.dispatch id dlc data) s = .next (dispatchCommand Config.build id dlc data s) := rfl
@[simp] theorem exec_fpingest (id : Ident) (dlc : BitVec 4) (data : Payload) :
    exec (.fpingest id dlc data) s = .next (ingestCommand Config.build id dlc data s) := rfl
@[simp] theorem exec_fpevict (sa : SourceAddr) : exec (.fpevict sa) s = .next (evictCommand sa s) := rfl
@[simp] theorem exec_fpflush : exec .fpflush s = .next (flushCommand s) := rfl
@[simp] theorem exec_tick : exec .tick s = .next (tickCommand Config.build s) := rfl
@[simp] theorem exec_bfloadm : exec .bfloadm s = .next (loadMessageCommand s) := rfl
@[simp] theorem exec_bfloadi (len : BitVec 4) (data : Payload) :
    exec (.bfloadi len data) s = .next (loadInlineCommand len data s) := rfl
@[simp] theorem exec_bftakeU (n : BitVec 6) : exec (.bftakeU n) s = .next (takeCommand n .unsigned s) := rfl
@[simp] theorem exec_bftakeS (n : BitVec 6) : exec (.bftakeS n) s = .next (takeCommand n .signed s) := rfl
@[simp] theorem exec_reserved0 : exec .reserved0 s = .next (s.respondBadCommand) := rfl
@[simp] theorem exec_reservedA : exec .reservedA s = .next (s.respondBadCommand) := rfl
@[simp] theorem exec_reservedB : exec .reservedB s = .next (s.respondBadCommand) := rfl
@[simp] theorem exec_reservedC : exec .reservedC s = .next (s.respondBadCommand) := rfl
@[simp] theorem exec_reservedD : exec .reservedD s = .next (s.respondBadCommand) := rfl
@[simp] theorem exec_reservedE : exec .reservedE s = .next (s.respondBadCommand) := rfl
@[simp] theorem exec_reservedF : exec .reservedF s = .next (s.respondBadCommand) := rfl
@[simp] theorem exec_bfskip (n : BitVec 6) : exec (.bfskip n) s = .next (takeCommand n .unsigned s) := rfl
@[simp] theorem exec_ticks (k : Nat) : exec (.ticks k) s = .next (tickTimes Config.build k s) := rfl
@[simp] theorem exec_pdu2 (id : Ident) : exec (.pdu2 id) s = .next (identCommand Config.build id s) := rfl
@[simp] theorem exec_pdu1 (id : Ident) : exec (.pdu1 id) s = .next (identCommand Config.build id s) := rfl
@[simp] theorem exec_fpFirst (id : Ident) (data : Payload) :
    exec (.fpFirst id data) s = .next (ingestCommand Config.build id 8#4 data s) := rfl
@[simp] theorem exec_fpCont (id : Ident) (data : Payload) :
    exec (.fpCont id data) s = .next (ingestCommand Config.build id 8#4 data s) := rfl

/-! ## step -/

/-- With no input the block does nothing (R278). -/
theorem takeInput_nil {s : State} (h : s.cmdIn = []) : takeInput s = .next s := by simp [takeInput, h]

/-- A step takes the host's next input. -/
theorem step_cons {s : State} {input : PortInput} {rest : List PortInput} (h : s.cmdIn = input :: rest) :
    step s = acceptInput input (s.setCmdIn rest) := by simp [step, takeInput, h]

/-- Everything that one word on the command port can do: it fills the assembler, it completes a packet that is turned away, or
it completes a packet whose instruction runs. -/
theorem acceptWord_cases (w : Word) (s : State) :
    (decode (s.pa ++ [w]) = .error .incomplete ∧ acceptWord w s = .next (s.setPa (s.pa ++ [w]))) ∨
    (decode (s.pa ++ [w]) = .error .nonZeroSbz ∧ acceptWord w s = .next (s.setPa []).respondBadCommand) ∨
    (∃ i, decode (s.pa ++ [w]) = .ok i ∧ acceptWord w s = exec i (s.setPa [])) := by
  unfold acceptWord
  split
  · exact .inl ⟨by assumption, rfl⟩
  · exact .inr (.inl ⟨by assumption, rfl⟩)
  · rename_i i h
    exact .inr (.inr ⟨i, h, rfl⟩)

end Sys2Proof.Machine
end

