-- ==== Sys2Proof/Laws/Codec.lean ====
section
/-! SUPPORT. The laws of field programs (R180): the record field by field, and what running one field's command does. -/

namespace Sys2Proof.Machine

@[simp] theorem readRecord_nil (rd : Reader) : readRecord [] rd = some [] := rfl

/-- A field of an illegal width leaves no record (log entry 22). -/
theorem readRecord_illegal {f : Field} {fs : List Field} {rd : Reader} (h : legalWidth f.width = false) :
    readRecord (f :: fs) rd = none := by simp [readRecord, h]

/-- A field whose take fails leaves no record (R180). -/
theorem readRecord_fails {f : Field} {fs : List Field} {rd : Reader} (h : takeFails rd f.width.toNat = true) :
    readRecord (f :: fs) rd = none := by simp [readRecord, takeField_fails h]

/-- A field whose take succeeds puts its value before those of the fields after it (R180). -/
theorem readRecord_succeeds {f : Field} {fs : List Field} {rd : Reader} (hl : legalWidth f.width = true)
    (h : takeFails rd f.width.toNat = false) :
    readRecord (f :: fs) rd
      = (readRecord fs { rd with cur := BitVec.ofNat 11 (rd.cur.toNat + f.width.toNat) }).map
          (widenTaken f.takeForm (takenValue rd f.width.toNat) f.width.toNat :: ·) := by
  simp [readRecord, hl, takeField_succeeds h]

/-- A field's command is a take in the field's form (R93, R180). -/
theorem exec_command (f : Field) (s : State) : exec f.command s = .next (takeCommand f.width f.takeForm s) := by
  obtain ⟨name, width, form⟩ := f
  cases form <;> rfl

/-- Running a list of takes: the first one, then the rest. -/
theorem execAll_commands_cons (f : Field) (fs : List Field) (s : State) :
    execAll ((f :: fs).map Field.command) s = execAll (fs.map Field.command) (takeCommand f.width f.takeForm s) := by
  simp [execAll, exec_command]

/-! ## Labels (R185) -/

/-- A raw value with a label reads as it. -/
theorem labelOf_label {labels : List String} {raw : Nat} {l : String} (h : labels[raw]? = some l) :
    labelOf labels raw = .label l := by simp [labelOf, h]

/-- A raw value past the labels reads as itself. -/
theorem labelOf_unmapped {labels : List String} {raw : Nat} (h : labels.length ≤ raw) :
    labelOf labels raw = .unmapped raw := by simp [labelOf, List.getElem?_eq_none h]

end Sys2Proof.Machine
end

