-- ==== Sys2Proof/Laws/Decode.lean ====
section
/-! SUPPORT. The bit fields of packets as numbers: what each encoded word is, and what each field reads from a word. -/

namespace Sys2Proof

/-! ## Bit fields as numbers -/

theorem toNat_append_add {n m : Nat} (x : BitVec n) (y : BitVec m) : (x ++ y).toNat = x.toNat * 2 ^ m + y.toNat := by
  rw [BitVec.toNat_append, ← Nat.shiftLeft_add_eq_or_of_lt y.isLt, Nat.shiftLeft_eq]

theorem extract_toNat {n : Nat} (x : BitVec n) (lo len : Nat) :
    (x.extractLsb' lo len).toNat = x.toNat / 2 ^ lo % 2 ^ len := by
  rw [BitVec.extractLsb'_toNat, Nat.shiftRight_eq_div_pow]

theorem opcode_toNat (w0 : Word) : (opcode w0).toNat = w0.toNat / 2 ^ 28 := by
  have := w0.isLt
  rw [opcode, extract_toNat]
  omega

theorem identField_toNat (w1 : Word) : (identField w1).toNat = w1.toNat % 2 ^ 29 := by
  rw [identField, extract_toNat]
  omega

/-! ## The encoded words as numbers -/

theorem wordPlain_toNat (op : BitVec 4) : (wordPlain op).toNat = op.toNat * 2 ^ 28 := by
  show (op ++ 0#28 : BitVec (4 + 28)).toNat = _
  rw [toNat_append_add]
  simp

theorem wordCount_toNat (op count : BitVec 4) : (wordCount op count).toNat = op.toNat * 2 ^ 28 + count.toNat * 2 ^ 24 := by
  show ((op ++ count : BitVec (4 + 4)) ++ 0#24 : BitVec (4 + 4 + 24)).toNat = _
  simp only [toNat_append_add, BitVec.toNat_ofNat]
  omega

theorem wordTake_toNat (signed : BitVec 1) (n : BitVec 6) :
    (wordTake signed n).toNat = 9 * 2 ^ 28 + signed.toNat * 2 ^ 6 + n.toNat := by
  show (((0x9#4 ++ 0#21 : BitVec (4 + 21)) ++ signed : BitVec (4 + 21 + 1)) ++ n : BitVec (4 + 21 + 1 + 6)).toNat = _
  simp only [toNat_append_add, BitVec.toNat_ofNat]
  omega

theorem wordEvict_toNat (sa : SourceAddr) : (wordEvict sa).toNat = 4 * 2 ^ 28 + sa.toNat := by
  show ((0x4#4 ++ 0#20 : BitVec (4 + 20)) ++ sa : BitVec (4 + 20 + 8)).toNat = _
  simp only [toNat_append_add, BitVec.toNat_ofNat]
  omega

theorem wordIdent_toNat (id : Ident) : (wordIdent id).toNat = id.toNat := by
  show (0#3 ++ id : BitVec (3 + 29)).toNat = _
  rw [toNat_append_add]
  simp

theorem firstWord_toNat (d : Payload) :
    d.firstWord.toNat = d.b3.toNat * 2 ^ 24 + d.b2.toNat * 2 ^ 16 + d.b1.toNat * 2 ^ 8 + d.b0.toNat := by
  show (((d.b3 ++ d.b2 : BitVec (8 + 8)) ++ d.b1 : BitVec (8 + 8 + 8)) ++ d.b0 : BitVec (8 + 8 + 8 + 8)).toNat = _
  simp only [toNat_append_add]
  omega

theorem secondWord_toNat (d : Payload) :
    d.secondWord.toNat = d.b7.toNat * 2 ^ 24 + d.b6.toNat * 2 ^ 16 + d.b5.toNat * 2 ^ 8 + d.b4.toNat := by
  show (((d.b7 ++ d.b6 : BitVec (8 + 8)) ++ d.b5 : BitVec (8 + 8 + 8)) ++ d.b4 : BitVec (8 + 8 + 8 + 8)).toNat = _
  simp only [toNat_append_add]
  omega

/-! ## Fields read back -/

@[simp] theorem opcode_wordPlain (op : BitVec 4) : opcode (wordPlain op) = op := by
  apply BitVec.eq_of_toNat_eq
  rw [opcode_toNat, wordPlain_toNat]
  omega

@[simp] theorem opcode_wordCount (op count : BitVec 4) : opcode (wordCount op count) = op := by
  apply BitVec.eq_of_toNat_eq
  rw [opcode_toNat, wordCount_toNat]
  omega

@[simp] theorem opcode_wordTake (signed : BitVec 1) (n : BitVec 6) : opcode (wordTake signed n) = 0x9#4 := by
  apply BitVec.eq_of_toNat_eq
  rw [opcode_toNat, wordTake_toNat, BitVec.toNat_ofNat]
  omega

@[simp] theorem opcode_wordEvict (sa : SourceAddr) : opcode (wordEvict sa) = 0x4#4 := by
  apply BitVec.eq_of_toNat_eq
  rw [opcode_toNat, wordEvict_toNat, BitVec.toNat_ofNat]
  omega

@[simp] theorem sbz_wordPlain (op : BitVec 4) : (wordPlain op).extractLsb' 0 28 = 0#28 := by
  apply BitVec.eq_of_toNat_eq
  rw [extract_toNat, wordPlain_toNat, BitVec.toNat_ofNat]
  omega

@[simp] theorem sbz_wordCount (op count : BitVec 4) : (wordCount op count).extractLsb' 0 24 = 0#24 := by
  apply BitVec.eq_of_toNat_eq
  rw [extract_toNat, wordCount_toNat, BitVec.toNat_ofNat]
  omega

@[simp] theorem count_wordCount (op count : BitVec 4) : (wordCount op count).extractLsb' 24 4 = count := by
  apply BitVec.eq_of_toNat_eq
  rw [extract_toNat, wordCount_toNat]
  omega

@[simp] theorem sbz_wordTake (signed : BitVec 1) (n : BitVec 6) : (wordTake signed n).extractLsb' 7 21 = 0#21 := by
  apply BitVec.eq_of_toNat_eq
  rw [extract_toNat, wordTake_toNat, BitVec.toNat_ofNat]
  omega

@[simp] theorem signed_wordTake (signed : BitVec 1) (n : BitVec 6) : (wordTake signed n).extractLsb' 6 1 = signed := by
  apply BitVec.eq_of_toNat_eq
  rw [extract_toNat, wordTake_toNat]
  omega

@[simp] theorem width_wordTake (signed : BitVec 1) (n : BitVec 6) : (wordTake signed n).extractLsb' 0 6 = n := by
  apply BitVec.eq_of_toNat_eq
  rw [extract_toNat, wordTake_toNat]
  omega

@[simp] theorem sbz_wordEvict (sa : SourceAddr) : (wordEvict sa).extractLsb' 8 20 = 0#20 := by
  apply BitVec.eq_of_toNat_eq
  rw [extract_toNat, wordEvict_toNat, BitVec.toNat_ofNat]
  omega

@[simp] theorem sa_wordEvict (sa : SourceAddr) : (wordEvict sa).extractLsb' 0 8 = sa := by
  apply BitVec.eq_of_toNat_eq
  rw [extract_toNat, wordEvict_toNat]
  omega

@[simp] theorem identField_wordIdent (id : Ident) : identField (wordIdent id) = id := by
  apply BitVec.eq_of_toNat_eq
  rw [identField_toNat, wordIdent_toNat]
  omega

/-- Packing and unpacking a payload gives it back (R77). -/
@[simp] theorem unpackPayload_words (d : Payload) : unpackPayload d.firstWord d.secondWord = d := by
  obtain ⟨b0, b1, b2, b3, b4, b5, b6, b7⟩ := d
  simp only [unpackPayload, Payload.mk.injEq]
  refine ⟨?_, ?_, ?_, ?_, ?_, ?_, ?_, ?_⟩ <;>
    (apply BitVec.eq_of_toNat_eq; simp only [extract_toNat, firstWord_toNat, secondWord_toNat]; omega)

@[simp] theorem checkSbz_true (i : Instr) : checkSbz true i = .ok i := rfl

@[simp] theorem checkSbz_false (i : Instr) : checkSbz false i = .error .nonZeroSbz := rfl

/-- What a decode of a packet with a non-zero SBZ field, or none, answers: never that it is incomplete. -/
theorem checkSbz_ne_incomplete (b : Bool) (i : Instr) : checkSbz b i ≠ .error .incomplete := by
  cases b <;> simp

theorem decodeFields_ne_incomplete (w0 w1 w2 w3 : Word) : decodeFields w0 w1 w2 w3 ≠ .error .incomplete := by
  unfold decodeFields
  split <;> first | exact checkSbz_ne_incomplete _ _ | simp

end Sys2Proof
end

