-- ==== Sys2Proof/Laws/Memory.lean ====
section
/-! SUPPORT. The laws of the byte stores: reading after writing, and that every operation keeps the canonical form. -/

namespace Sys2Proof.Machine

/-! ## Reading -/

@[simp] theorem Memory.read_nil (i : Nat) : Memory.read [] i = 0#8 := rfl

theorem Memory.read_of_forall_ne {m : Memory} {i : Nat} (h : ∀ c ∈ m, c.1 ≠ i) : Memory.read m i = 0#8 := by
  induction m with
  | nil => rfl
  | cons c rest ih =>
    obtain ⟨a, b⟩ := c
    simp only [List.mem_cons, forall_eq_or_imp] at h
    simp [Memory.read, h.1, ih h.2]

theorem Memory.read_filter_keep {m : Memory} {i : Nat} {p : Nat → Bool} (h : p i = true) :
    Memory.read (m.filter fun c => p c.1) i = Memory.read m i := by
  induction m with
  | nil => rfl
  | cons c rest ih =>
    obtain ⟨a, b⟩ := c
    by_cases hp : p a = true
    · simp [List.filter, hp, Memory.read, ih]
    · have : a ≠ i := fun e => hp (e ▸ h)
      simp [List.filter, hp, Memory.read, this, ih]

theorem Memory.read_filter_drop {m : Memory} {i : Nat} {p : Nat → Bool} (h : p i = false) :
    Memory.read (m.filter fun c => p c.1) i = 0#8 := by
  refine Memory.read_of_forall_ne fun c hc => ?_
  rintro rfl
  simp [h] at hc

theorem Memory.read_place (m : Memory) (i j : Nat) (v : Byte) (h : ∀ c ∈ m, c.1 ≠ i) :
    Memory.read (Memory.place m i v) j = if i = j then v else Memory.read m j := by
  induction m with
  | nil => simp [Memory.place, Memory.read]
  | cons c rest ih =>
    obtain ⟨a, b⟩ := c
    simp only [List.mem_cons, forall_eq_or_imp] at h
    by_cases hlt : i < a
    · simp [Memory.place, hlt, Memory.read]
    · by_cases hj : a = j
      · subst hj
        have : ¬ i = a := fun e => h.1 e.symm
        simp [Memory.place, hlt, Memory.read, this]
      · simp [Memory.place, hlt, Memory.read, hj, ih h.2]

/-- What a byte reads as after one byte is written: everything that a write does. -/
theorem Memory.read_write (m : Memory) (i j : Nat) (v : Byte) :
    Memory.read (Memory.write m i v) j = if i = j then v else Memory.read m j := by
  have hf : ∀ c ∈ m.filter (fun c => c.1 != i), c.1 ≠ i := fun c hc => by simpa using (List.mem_filter.1 hc).2
  unfold Memory.write
  by_cases hv : v = 0#8
  · by_cases hj : i = j
    · subst hj
      simp [hv, Memory.read_of_forall_ne hf]
    · have := Memory.read_filter_keep (m := m) (i := j) (p := fun a => a != i) (by simpa using fun e => hj e.symm)
      simp [hv, hj, this]
  · simp only [hv, if_false, Memory.read_place _ _ _ _ hf]
    by_cases hj : i = j
    · simp [hj]
    · simpa [hj] using Memory.read_filter_keep (m := m) (i := j) (p := fun a => a != i) (by simpa using fun e => hj e.symm)

/-- What a byte reads as after several bytes are written from an offset up. -/
theorem Memory.read_writeBytes (m : Memory) (off : Nat) (bs : List Byte) (j : Nat) :
    Memory.read (Memory.writeBytes m off bs) j
      = if off ≤ j ∧ j < off + bs.length then bs.getD (j - off) 0#8 else Memory.read m j := by
  induction bs generalizing m off with
  | nil => simp [Memory.writeBytes]
  | cons b bs ih =>
    simp only [Memory.writeBytes, ih, Memory.read_write, List.length_cons]
    by_cases h0 : off = j
    · subst h0
      simp
    · by_cases h1 : off + 1 ≤ j ∧ j < off + 1 + bs.length
      · have h2 : off ≤ j ∧ j < off + (bs.length + 1) := by omega
        obtain ⟨k, hk⟩ : ∃ k, j - off = k + 1 := ⟨j - off - 1, by omega⟩
        have hk' : j - (off + 1) = k := by omega
        simp [h1, h2, hk, hk']
      · have h2 : ¬ (off ≤ j ∧ j < off + (bs.length + 1)) := by omega
        rw [if_neg h1, if_neg h2, if_neg h0]

/-- A store made of bytes reads them in index order, and 0x00 after them. -/
theorem Memory.read_ofBytes (bs : List Byte) (j : Nat) : Memory.read (Memory.ofBytes bs) j = bs.getD j 0#8 := by
  unfold Memory.ofBytes
  rw [Memory.read_writeBytes]
  by_cases h : j < bs.length
  · simp [h]
  · simp [h]

/-- A truncated store reads as before below the length, and 0x00 from it up. -/
theorem Memory.read_truncate (m : Memory) (len j : Nat) :
    Memory.read (Memory.truncate m len) j = if j < len then Memory.read m j else 0#8 := by
  unfold Memory.truncate
  by_cases h : j < len
  · simpa [h] using Memory.read_filter_keep (m := m) (i := j) (p := fun a => decide (a < len)) (by simpa using h)
  · simpa [h] using Memory.read_filter_drop (m := m) (i := j) (p := fun a => decide (a < len)) (by simpa using h)

/-! ## The cells of a store after an operation -/

theorem Memory.mem_place {m : Memory} {i : Nat} {v : Byte} {c : Host.Cell} (h : c ∈ Memory.place m i v) :
    c = (i, v) ∨ c ∈ m := by
  induction m with
  | nil => simpa [Memory.place] using h
  | cons d rest ih =>
    obtain ⟨a, b⟩ := d
    unfold Memory.place at h
    split at h
    · simpa using h
    · rcases List.mem_cons.1 h with h | h
      · exact .inr (h ▸ List.mem_cons_self)
      · exact (ih h).imp_right (List.mem_cons_of_mem _)

theorem Memory.mem_write {m : Memory} {i : Nat} {v : Byte} {c : Host.Cell} (h : c ∈ Memory.write m i v) :
    (c = (i, v) ∧ v ≠ 0#8) ∨ c ∈ m := by
  unfold Memory.write at h
  split at h
  · exact .inr (List.mem_filter.1 h).1
  · rename_i hv
    rcases Memory.mem_place h with h | h
    · exact .inl ⟨h, hv⟩
    · exact .inr (List.mem_filter.1 h).1

/-- Cells stay below a bound that the bytes written stay below. -/
theorem Memory.writeBytes_below {m : Memory} {off bound : Nat} {bs : List Byte} (hm : ∀ c ∈ m, c.1 < bound)
    (hb : off + bs.length ≤ bound) : ∀ c ∈ Memory.writeBytes m off bs, c.1 < bound := by
  induction bs generalizing m off with
  | nil => simpa [Memory.writeBytes] using hm
  | cons b bs ih =>
    simp only [List.length_cons] at hb
    refine ih (fun c hc => ?_) (by omega)
    rcases Memory.mem_write hc with ⟨rfl, -⟩ | h
    · show off < bound
      omega
    · exact hm c h

theorem Memory.truncate_below (m : Memory) (len : Nat) : ∀ c ∈ Memory.truncate m len, c.1 < len := by
  intro c hc
  simpa using (List.mem_filter.1 hc).2

/-! ## The canonical form is kept -/

theorem Memory.wf_nil : Memory.wf [] := by simp [Memory.wf]

theorem Memory.place_pairwise {m : Memory} {i : Nat} {v : Byte} (hm : m.Pairwise fun a b => a.1 < b.1)
    (h : ∀ c ∈ m, c.1 ≠ i) : (Memory.place m i v).Pairwise fun a b => a.1 < b.1 := by
  induction m with
  | nil => simp [Memory.place]
  | cons d rest ih =>
    obtain ⟨a, b⟩ := d
    simp only [List.mem_cons, forall_eq_or_imp] at h
    obtain ⟨hd, hr⟩ := List.pairwise_cons.1 hm
    unfold Memory.place
    split
    · rename_i hlt
      refine List.pairwise_cons.2 ⟨fun c hc => ?_, hm⟩
      rcases List.mem_cons.1 hc with rfl | hc
      · exact hlt
      · exact lt_trans hlt (hd c hc)
    · rename_i hlt
      refine List.pairwise_cons.2 ⟨fun c hc => ?_, ih hr h.2⟩
      rcases Memory.mem_place hc with rfl | hc
      · exact lt_of_le_of_ne (not_lt.1 hlt) h.1
      · exact hd c hc

theorem Memory.filter_wf {m : Memory} (p : Host.Cell → Bool) (hm : Memory.wf m) : Memory.wf (m.filter p) :=
  ⟨hm.1.filter p, fun c hc => hm.2 c (List.mem_filter.1 hc).1⟩

/-- A write inside the store keeps the canonical form. -/
theorem Memory.write_wf {m : Memory} {i : Nat} (v : Byte) (hm : Memory.wf m) (hi : i < bufBytes) :
    Memory.wf (Memory.write m i v) := by
  refine ⟨?_, fun c hc => ?_⟩
  · unfold Memory.write
    split
    · exact (Memory.filter_wf _ hm).1
    · refine Memory.place_pairwise (Memory.filter_wf _ hm).1 fun c hc => by simpa using (List.mem_filter.1 hc).2
  · rcases Memory.mem_write hc with ⟨rfl, hv⟩ | hc
    · exact ⟨hi, hv⟩
    · exact hm.2 c hc

theorem Memory.writeBytes_wf {m : Memory} {off : Nat} {bs : List Byte} (hm : Memory.wf m)
    (hb : off + bs.length ≤ bufBytes) : Memory.wf (Memory.writeBytes m off bs) := by
  induction bs generalizing m off with
  | nil => simpa [Memory.writeBytes] using hm
  | cons b bs ih =>
    simp only [List.length_cons] at hb
    exact ih (Memory.write_wf b hm (by omega)) (by omega)

theorem Memory.ofBytes_wf {bs : List Byte} (hb : bs.length ≤ bufBytes) : Memory.wf (Memory.ofBytes bs) :=
  Memory.writeBytes_wf Memory.wf_nil (by omega)

theorem Memory.truncate_wf {m : Memory} (len : Nat) (hm : Memory.wf m) : Memory.wf (Memory.truncate m len) :=
  Memory.filter_wf _ hm

/-! ## Equal stores are equal lists -/

theorem Memory.read_mem {m : Memory} (hm : m.Pairwise fun a b => a.1 < b.1) {c : Host.Cell} (hc : c ∈ m) :
    Memory.read m c.1 = c.2 := by
  induction m with
  | nil => simp at hc
  | cons d rest ih =>
    obtain ⟨a, b⟩ := d
    obtain ⟨hd, hr⟩ := List.pairwise_cons.1 hm
    rcases List.mem_cons.1 hc with rfl | hc
    · simp [Memory.read]
    · have : a ≠ c.1 := ne_of_lt (hd c hc)
      simp [Memory.read, this, ih hr hc]

theorem Memory.mem_of_read {m : Memory} {i : Nat} (h : Memory.read m i ≠ 0#8) : (i, Memory.read m i) ∈ m := by
  induction m with
  | nil => simp at h
  | cons d rest ih =>
    obtain ⟨a, b⟩ := d
    unfold Memory.read at h ⊢
    by_cases ha : a = i
    · simp [ha]
    · simp only [ha, if_false] at h ⊢
      exact List.mem_cons_of_mem _ (ih h)

theorem Memory.mem_iff_read {m : Memory} (hm : Memory.wf m) (c : Host.Cell) :
    c ∈ m ↔ Memory.read m c.1 = c.2 ∧ c.2 ≠ 0#8 := by
  refine ⟨fun hc => ⟨Memory.read_mem hm.1 hc, (hm.2 c hc).2⟩, fun ⟨h, h0⟩ => ?_⟩
  have := Memory.mem_of_read (m := m) (i := c.1) (h ▸ h0)
  rwa [h] at this

/-- Two stores in canonical form that read the same at every offset are the same list. -/
theorem Memory.ext_of_wf {m m' : Memory} (hm : Memory.wf m) (hm' : Memory.wf m')
    (h : ∀ i, Memory.read m i = Memory.read m' i) : m = m' := by
  refine List.Perm.eq_of_pairwise (le := fun a b : Host.Cell => a.1 < b.1) ?_ hm.1 hm'.1 ?_
  · intro a b _ _ hab hba
    omega
  · refine (List.perm_ext_iff_of_nodup ?_ ?_).2 fun c => ?_
    · exact hm.1.imp fun hab e => by simp [e] at hab
    · exact hm'.1.imp fun hab e => by simp [e] at hab
    · rw [Memory.mem_iff_read hm, Memory.mem_iff_read hm', h]

end Sys2Proof.Machine
end

