-- ==== Sys2Proof/Laws/Table.lean ====
section
/-! SUPPORT. The laws of the reassembly table: finding after setting, erasing and ticking, and that every operation keeps the canonical form. -/

namespace Sys2Proof.Machine

/-! ## Finding -/

@[simp] theorem Table.find_nil (sa : SourceAddr) : Table.find [] sa = none := rfl

theorem Table.find_eq_none {t : Table} {sa : SourceAddr} (h : ∀ p ∈ t, p.1 ≠ sa) : Table.find t sa = none := by
  induction t with
  | nil => rfl
  | cons p rest ih =>
    obtain ⟨k, e⟩ := p
    simp only [List.mem_cons, forall_eq_or_imp] at h
    simp [Table.find, h.1, ih h.2]

theorem Table.mem_of_find {t : Table} {sa : SourceAddr} {e : Entry} (h : Table.find t sa = some e) : (sa, e) ∈ t := by
  induction t with
  | nil => simp at h
  | cons p rest ih =>
    obtain ⟨k, x⟩ := p
    unfold Table.find at h
    split at h
    · rename_i hk
      simp [hk, Option.some.inj h]
    · exact List.mem_cons_of_mem _ (ih h)

theorem Table.find_erase (t : Table) (sa other : SourceAddr) :
    Table.find (Table.erase t sa) other = if sa = other then none else Table.find t other := by
  unfold Table.erase
  by_cases h : sa = other
  · subst h
    simp only [if_true]
    exact Table.find_eq_none fun p hp => by simpa using (List.mem_filter.1 hp).2
  · simp only [h, if_false]
    induction t with
    | nil => rfl
    | cons p rest ih =>
      obtain ⟨k, e⟩ := p
      by_cases hk : k = sa
      · simp [List.filter, hk, Table.find, h, ih]
      · have hk' : (k != sa) = true := by simpa using hk
        simp [List.filter, hk', Table.find, ih]

theorem Table.find_place (t : Table) (sa other : SourceAddr) (e : Entry) (h : ∀ p ∈ t, p.1 ≠ sa) :
    Table.find (Table.place t sa e) other = if sa = other then some e else Table.find t other := by
  induction t with
  | nil => simp [Table.place, Table.find]
  | cons p rest ih =>
    obtain ⟨k, x⟩ := p
    simp only [List.mem_cons, forall_eq_or_imp] at h
    unfold Table.place
    split
    · simp [Table.find]
    · by_cases hk : k = other
      · subst hk
        have : ¬ sa = k := fun e => h.1 e.symm
        simp [Table.find, this]
      · simp [Table.find, hk, ih h.2]

/-- Setting a source's entry changes that source only (R26). -/
theorem Table.find_set (t : Table) (sa other : SourceAddr) (e : Entry) :
    Table.find (Table.set t sa e) other = if sa = other then some e else Table.find t other := by
  unfold Table.set
  rw [Table.find_place _ _ _ _ fun p hp => by simpa using (List.mem_filter.1 hp).2, Table.find_erase]
  split <;> rfl

/-! ## The pairs of a table after an operation -/

theorem Table.mem_erase {t : Table} {sa : SourceAddr} {p : SourceAddr × Entry} (h : p ∈ Table.erase t sa) :
    p ∈ t ∧ p.1 ≠ sa := by
  have := List.mem_filter.1 h
  exact ⟨this.1, by simpa using this.2⟩

theorem Table.mem_place {t : Table} {sa : SourceAddr} {e : Entry} {p : SourceAddr × Entry}
    (h : p ∈ Table.place t sa e) : p = (sa, e) ∨ p ∈ t := by
  induction t with
  | nil => simpa [Table.place] using h
  | cons q rest ih =>
    obtain ⟨k, x⟩ := q
    unfold Table.place at h
    split at h
    · simpa using h
    · rcases List.mem_cons.1 h with h | h
      · exact .inr (h ▸ List.mem_cons_self)
      · exact (ih h).imp_right (List.mem_cons_of_mem _)

theorem Table.mem_set {t : Table} {sa : SourceAddr} {e : Entry} {p : SourceAddr × Entry} (h : p ∈ Table.set t sa e) :
    p = (sa, e) ∨ p ∈ t :=
  (Table.mem_place h).imp_right fun h => (Table.mem_erase h).1

/-! ## How many entries -/

theorem Table.length_place (t : Table) (sa : SourceAddr) (e : Entry) : (Table.place t sa e).length = t.length + 1 := by
  induction t with
  | nil => rfl
  | cons q rest ih =>
    obtain ⟨k, x⟩ := q
    unfold Table.place
    split <;> simp [ih]

theorem Table.length_erase_le (t : Table) (sa : SourceAddr) : (Table.erase t sa).length ≤ t.length :=
  List.length_filter_le ..

theorem Table.length_erase_lt {t : Table} {sa : SourceAddr} (h : Table.find t sa ≠ none) :
    (Table.erase t sa).length < t.length := by
  obtain ⟨e, he⟩ := Option.ne_none_iff_exists'.1 h
  exact List.length_filter_lt_length_iff_exists.2 ⟨_, Table.mem_of_find he, by simp⟩

/-- A set entry takes a place only if its source had none (R212). -/
theorem Table.length_set (t : Table) (sa : SourceAddr) (e : Entry) :
    (Table.set t sa e).length = (Table.erase t sa).length + 1 := Table.length_place ..

/-! ## The canonical form is kept -/

theorem Table.wf_nil : Table.wf [] := List.Pairwise.nil

theorem Table.erase_wf {t : Table} (sa : SourceAddr) (h : Table.wf t) : Table.wf (Table.erase t sa) := h.filter _

theorem Table.place_wf {t : Table} {sa : SourceAddr} {e : Entry} (ht : Table.wf t) (h : ∀ p ∈ t, p.1 ≠ sa) :
    Table.wf (Table.place t sa e) := by
  induction t with
  | nil => simp [Table.place]
  | cons q rest ih =>
    obtain ⟨k, x⟩ := q
    simp only [List.mem_cons, forall_eq_or_imp] at h
    obtain ⟨hd, hr⟩ := List.pairwise_cons.1 ht
    unfold Table.place
    split
    · rename_i hlt
      refine List.pairwise_cons.2 ⟨fun p hp => ?_, ht⟩
      rcases List.mem_cons.1 hp with rfl | hp
      · exact hlt
      · exact lt_trans hlt (hd p hp)
    · rename_i hlt
      refine List.pairwise_cons.2 ⟨fun p hp => ?_, ih hr h.2⟩
      rcases Table.mem_place hp with rfl | hp
      · exact lt_of_le_of_ne (not_lt.1 hlt) fun e => h.1 (BitVec.eq_of_toNat_eq e)
      · exact hd p hp

theorem Table.set_wf {t : Table} (sa : SourceAddr) (e : Entry) (h : Table.wf t) : Table.wf (Table.set t sa e) :=
  Table.place_wf (Table.erase_wf sa h) fun _ hp => (Table.mem_erase hp).2

theorem Table.older_wf {t : Table} (h : Table.wf t) : Table.wf (Table.older t) :=
  List.pairwise_map.2 h

theorem Table.tick_wf (c : Config) {t : Table} (h : Table.wf t) : Table.wf (Table.tick c t) :=
  (Table.older_wf h).filter _

/-! ## Ticking -/

theorem Table.find_older (t : Table) (sa : SourceAddr) :
    Table.find (Table.older t) sa = (Table.find t sa).map ageEntry := by
  induction t with
  | nil => rfl
  | cons q rest ih =>
    obtain ⟨k, x⟩ := q
    by_cases hk : k = sa
    · simp [Table.older, Table.find, hk]
    · simpa [Table.older, Table.find, hk] using ih

theorem Table.find_filter {t : Table} (ht : Table.wf t) (q : Entry → Bool) (sa : SourceAddr) :
    Table.find (t.filter fun p => q p.2) sa = (Table.find t sa).filter q := by
  induction t with
  | nil => rfl
  | cons p rest ih =>
    obtain ⟨k, x⟩ := p
    obtain ⟨hd, hr⟩ := List.pairwise_cons.1 ht
    by_cases hk : k = sa
    · subst hk
      by_cases hq : q x = true
      · simp [List.filter, hq, Table.find, Option.filter]
      · have : Table.find (rest.filter fun p => q p.2) k = none :=
          Table.find_eq_none fun p hp e => by
            have := hd p (List.mem_filter.1 hp).1
            rw [e] at this
            exact lt_irrefl _ this
        simp [List.filter, hq, Table.find, this, Option.filter]
    · by_cases hq : q x = true
      · simp [List.filter, hq, Table.find, hk, ih hr]
      · simp [List.filter, hq, Table.find, hk, ih hr]

/-- What one tick does to each source: the entry gets older, and a stale one is removed (R243). -/
theorem Table.find_tick (c : Config) {t : Table} (ht : Table.wf t) (sa : SourceAddr) :
    Table.find (Table.tick c t) sa = ((Table.find t sa).map ageEntry).filter fun e => !isStale c e := by
  rw [← Table.find_older]
  exact Table.find_filter (Table.older_wf ht) (fun e => !isStale c e) sa

theorem Table.length_tick (c : Config) (t : Table) : (Table.tick c t).length + staleCount c t = t.length := by
  have := List.length_eq_length_filter_add (l := Table.older t) fun p => isStale c p.2
  have hlen : (Table.older t).length = t.length := List.length_map ..
  unfold Table.tick staleCount
  omega

end Sys2Proof.Machine
end

