-- ==== Sys2Proof/Laws/Ingest.lean ====
section
/-! SUPPORT. The laws of the ingest operation (R201 to R212): control-byte fields as numbers, what an accepted frame makes of an entry, and everything that an ingest can do. -/

namespace Sys2Proof.Machine

/-! ## Fields as numbers -/

theorem sequenceId_toNat (b : Byte) : (sequenceId b).toNat = b.toNat / 32 := by
  have := b.isLt
  rw [sequenceId, extract_toNat]
  omega

theorem frameIndex_toNat (b : Byte) : (frameIndex b).toNat = b.toNat % 32 := by
  rw [frameIndex, extract_toNat, Nat.pow_zero, Nat.div_one]
  rfl

theorem frameIndex_eq_zero {b : Byte} : frameIndex b = 0#5 ↔ b.toNat % 32 = 0 := by
  rw [← BitVec.toNat_inj, frameIndex_toNat, BitVec.toNat_ofNat]

theorem frameOffset_bounds {k : BitVec 5} (_ : k ≠ 0#5) : 6 ≤ frameOffset k ∧ frameOffset k + 7 ≤ bufBytes := by
  have := k.isLt
  unfold frameOffset bufBytes
  omega

theorem frameOffset_toNat (b : Byte) : frameOffset (frameIndex b) = 6 + (b.toNat % 32 - 1) * 7 := by
  rw [frameOffset, frameIndex_toNat]

theorem fields_toNat {a b c : Nat} (hb : b < 256) (hc : c < 256) :
    (a <<< 16 ||| b <<< 8) ||| c = a * 65536 + b * 256 + c := by
  rw [← Nat.shiftLeft_add_eq_or_of_lt (a := a) (b := b <<< 8) (i := 16) (by rw [Nat.shiftLeft_eq]; omega)]
  have : a <<< 16 + b <<< 8 = (a * 256 + b) <<< 8 := by simp only [Nat.shiftLeft_eq]; omega
  rw [this, ← Nat.shiftLeft_add_eq_or_of_lt (by omega)]
  simp only [Nat.shiftLeft_eq]
  omega

/-- The value of a PENDING response as a number (R217). -/
theorem pendingValue_toNat (e : Entry) :
    (pendingValue e).toNat = e.seq.toNat * 65536 + e.decl.toNat * 256 + e.hw.toNat := by
  have h1 := e.seq.isLt
  have h2 := e.decl.isLt
  have h3 := e.hw.isLt
  have a1 : e.seq.toNat % 2 ^ 32 = e.seq.toNat := Nat.mod_eq_of_lt (by omega)
  have a2 : e.decl.toNat % 2 ^ 32 = e.decl.toNat := Nat.mod_eq_of_lt (by omega)
  have a3 : e.hw.toNat % 2 ^ 32 = e.hw.toNat := Nat.mod_eq_of_lt (by omega)
  have b1 : e.seq.toNat <<< 16 % 2 ^ 32 = e.seq.toNat <<< 16 := Nat.mod_eq_of_lt (by rw [Nat.shiftLeft_eq]; omega)
  have b2 : e.decl.toNat <<< 8 % 2 ^ 32 = e.decl.toNat <<< 8 := Nat.mod_eq_of_lt (by rw [Nat.shiftLeft_eq]; omega)
  simp only [pendingValue, BitVec.toNat_or, BitVec.toNat_shiftLeft, BitVec.toNat_setWidth, a1, a2, a3, b1, b2]
  exact fields_toNat h2 h3

/-! ## What an accepted frame makes of an entry -/

@[simp] theorem acceptFrame_pgn (e : Entry) (d : Payload) : (acceptFrame e d).pgn = e.pgn := rfl
@[simp] theorem acceptFrame_seq (e : Entry) (d : Payload) : (acceptFrame e d).seq = e.seq := rfl
@[simp] theorem acceptFrame_decl (e : Entry) (d : Payload) : (acceptFrame e d).decl = e.decl := rfl
@[simp] theorem acceptFrame_age (e : Entry) (d : Payload) : (acceptFrame e d).age = 0#16 := rfl
@[simp] theorem acceptFrame_data (e : Entry) (d : Payload) :
    (acceptFrame e d).data = Memory.writeBytes e.data (frameOffset (frameIndex d.b0)) (contFrameBytes d) := rfl

theorem acceptFrame_frames (e : Entry) (d : Payload) : (acceptFrame e d).frames.toNat = min (e.frames.toNat + 1) 255 := by
  simp only [acceptFrame, BitVec.toNat_ofNat]
  omega

theorem acceptFrame_hw (e : Entry) (d : Payload) :
    (acceptFrame e d).hw.toNat = max e.hw.toNat (frameOffset (frameIndex d.b0) + 7) := by
  have h1 := e.hw.isLt
  have h2 := (frameIndex d.b0).isLt
  simp only [acceptFrame, BitVec.toNat_ofNat, frameOffset]
  omega

/-- Where the bytes of an accepted frame land (R207). -/
theorem read_acceptFrame (e : Entry) (d : Payload) (i : Nat) :
    Memory.read (acceptFrame e d).data i =
      if frameOffset (frameIndex d.b0) ≤ i ∧ i < frameOffset (frameIndex d.b0) + 7
      then (contFrameBytes d).getD (i - frameOffset (frameIndex d.b0)) 0#8 else Memory.read e.data i := by
  rw [acceptFrame_data, Memory.read_writeBytes]
  rfl

theorem acceptFrame_data_wf {e : Entry} (d : Payload) (h : Memory.wf e.data) (hk : frameIndex d.b0 ≠ 0#5) :
    Memory.wf (acceptFrame e d).data :=
  Memory.writeBytes_wf h (frameOffset_bounds hk).2

/-- The bytes of an entry stay below its high-water. -/
theorem acceptFrame_data_below {e : Entry} (d : Payload) (h : ∀ cell ∈ e.data, cell.1 < e.hw.toNat) :
    ∀ cell ∈ (acceptFrame e d).data, cell.1 < (acceptFrame e d).hw.toNat := by
  rw [acceptFrame_hw]
  refine Memory.writeBytes_below (fun c hc => lt_of_lt_of_le (h c hc) (le_max_left ..)) ?_
  exact le_max_right ..

theorem read_newEntry (pgn : Pgn) (d : Payload) (i : Nat) :
    Memory.read (newEntry pgn d).data i = (firstFrameBytes d).getD i 0#8 := Memory.read_ofBytes ..

/-! ## Everything that an ingest can do -/

/-- A first frame, case by case (R201, R205, R206, R211, R212). -/
theorem ingestFirst_cases (c : Config) (pgn : Pgn) (sa : SourceAddr) (d : Payload) (s : State) :
    (d.b1.toNat ≤ 6 ∧ ingestFirst c pgn sa d s
      = ((s.setFp (Table.erase s.fp sa)).deliver pgn sa d.b1 (Memory.ofBytes (firstFrameBytes d))).respond
          ⟨.decoded, .fastPacket, pgn, sa, d.b1.setWidth 32⟩) ∨
    (7 ≤ d.b1.toNat ∧ Table.find s.fp sa = none ∧ s.fp.length = c.fpEntries ∧
      ingestFirst c pgn sa d s = s.respond ⟨.capacityExceeded, .fastPacket, pgn, sa, 1#32⟩) ∨
    (7 ≤ d.b1.toNat ∧ (Table.find s.fp sa ≠ none ∨ s.fp.length ≠ c.fpEntries) ∧ c.fpMaxFrames ≤ 1 ∧
      ingestFirst c pgn sa d s
        = (s.setFp (Table.erase s.fp sa)).respond ⟨.capacityExceeded, .fastPacket, pgn, sa, 0#32⟩) ∨
    (7 ≤ d.b1.toNat ∧ (Table.find s.fp sa ≠ none ∨ s.fp.length ≠ c.fpEntries) ∧ 1 < c.fpMaxFrames ∧
      ingestFirst c pgn sa d s
        = (s.setFp (Table.set s.fp sa (newEntry pgn d))).respond
            ⟨.pending, .fastPacket, pgn, sa, pendingValue (newEntry pgn d)⟩) := by
  have hone : (newEntry pgn d).frames.toNat = 1 := rfl
  unfold ingestFirst
  rw [hone]
  by_cases h1 : d.b1.toNat ≤ 6
  · exact .inl ⟨h1, if_pos h1⟩
  · rw [if_neg h1]
    by_cases h2 : Table.find s.fp sa = none ∧ s.fp.length = c.fpEntries
    · exact .inr (.inl ⟨by omega, h2.1, h2.2, if_pos h2⟩)
    · rw [if_neg h2]
      have h2' : Table.find s.fp sa ≠ none ∨ s.fp.length ≠ c.fpEntries := Classical.not_and_iff_not_or_not.1 h2
      by_cases h3 : c.fpMaxFrames ≤ 1
      · exact .inr (.inr (.inl ⟨by omega, h2', h3, if_pos h3⟩))
      · exact .inr (.inr (.inr ⟨by omega, h2', by omega, if_neg h3⟩))

/-- An accepted continuation frame, case by case (R201, R210, R211). -/
theorem ingestAccepted_cases (c : Config) (pgn : Pgn) (sa : SourceAddr) (e : Entry) (s : State) :
    (e.decl.toNat ≤ e.hw.toNat ∧ ingestAccepted c pgn sa e s
      = ((s.setFp (Table.erase s.fp sa)).deliver pgn sa e.decl e.data).respond
          ⟨.decoded, .fastPacket, pgn, sa, e.decl.setWidth 32⟩) ∨
    (e.hw.toNat < e.decl.toNat ∧ c.fpMaxFrames ≤ e.frames.toNat ∧ ingestAccepted c pgn sa e s
      = (s.setFp (Table.erase s.fp sa)).respond ⟨.capacityExceeded, .fastPacket, pgn, sa, 0#32⟩) ∨
    (e.hw.toNat < e.decl.toNat ∧ e.frames.toNat < c.fpMaxFrames ∧ ingestAccepted c pgn sa e s
      = (s.setFp (Table.set s.fp sa e)).respond ⟨.pending, .fastPacket, pgn, sa, pendingValue e⟩) := by
  unfold ingestAccepted
  by_cases h1 : e.decl.toNat ≤ e.hw.toNat
  · exact .inl ⟨h1, if_pos h1⟩
  · rw [if_neg h1]
    by_cases h2 : c.fpMaxFrames ≤ e.frames.toNat
    · exact .inr (.inl ⟨by omega, h2, if_pos h2⟩)
    · exact .inr (.inr ⟨by omega, by omega, if_neg h2⟩)

/-- A continuation frame is refused as a mismatch, or accepted (R208). -/
theorem ingestContinuation_cases (c : Config) (pgn : Pgn) (sa : SourceAddr) (d : Payload) (s : State) :
    ((∀ e, Table.find s.fp sa = some e → e.seq ≠ sequenceId d.b0 ∨ e.pgn ≠ pgn) ∧
      ingestContinuation c pgn sa d s = s.respond ⟨.seqMismatch, .fastPacket, pgn, sa, d.b0.setWidth 32⟩) ∨
    (∃ e, Table.find s.fp sa = some e ∧ e.seq = sequenceId d.b0 ∧ e.pgn = pgn ∧
      ingestContinuation c pgn sa d s = ingestAccepted c pgn sa (acceptFrame e d) s) := by
  unfold ingestContinuation
  cases hf : Table.find s.fp sa with
  | none => exact .inl ⟨by simp, rfl⟩
  | some e =>
    by_cases h : e.seq ≠ sequenceId d.b0 ∨ e.pgn ≠ pgn
    · exact .inl ⟨by rintro _ ⟨rfl⟩; exact h, by simp only [if_pos h]⟩
    · refine .inr ⟨e, rfl, ?_, ?_, by simp only [if_neg h]⟩
      · by_contra hs
        exact h (.inl hs)
      · by_contra hp
        exact h (.inr hp)

/-- An ingest is a parse error, a first frame or a continuation frame (R201, R202). -/
theorem ingest_cases (c : Config) (pgn : Pgn) (sa : SourceAddr) (dlc : BitVec 4) (d : Payload) (s : State) :
    (dlc ≠ 8#4 ∧ ingest c pgn sa dlc d s = s.respond ⟨.parseError, .fastPacket, pgn, sa, 0#32⟩) ∨
    (dlc = 8#4 ∧ frameIndex d.b0 = 0#5 ∧ ingest c pgn sa dlc d s = ingestFirst c pgn sa d s) ∨
    (dlc = 8#4 ∧ frameIndex d.b0 ≠ 0#5 ∧ ingest c pgn sa dlc d s = ingestContinuation c pgn sa d s) := by
  unfold ingest
  by_cases h1 : dlc = 8#4
  · by_cases h2 : frameIndex d.b0 = 0#5
    · exact .inr (.inl ⟨h1, h2, by simp [h1, h2]⟩)
    · exact .inr (.inr ⟨h1, h2, by simp [h1, h2]⟩)
  · exact .inl ⟨h1, by simp [h1]⟩

theorem ingestCommand_eight (c : Config) (id : Ident) (d : Payload) (s : State) :
    ingestCommand c id 8#4 d s
      = if frameIndex d.b0 = 0#5 then ingestFirst c (pgnOf id) (sourceAddress id) d s
        else ingestContinuation c (pgnOf id) (sourceAddress id) d s := by
  simp [ingestCommand, legalCount, ingest]

/-- How an ingest changes the state: not at all, by removing the source's entry (with or without a delivery), or by setting
it. -/
inductive IngestEffect (pgn : Pgn) (sa : SourceAddr) (s t : State) : Prop where
  | nothing (r : Response) (h : t = s.respond r) (hst : r.status = .parseError ∨ r.status = .seqMismatch ∨
      (r.status = .capacityExceeded ∧ r.sa = sa ∧ Table.find s.fp sa = none))
  | removed (v : Word) (h : t = (s.setFp (Table.erase s.fp sa)).respond ⟨.capacityExceeded, .fastPacket, pgn, sa, v⟩)
  | delivered (len : BitVec 8) (m : Memory) (h : t = ((s.setFp (Table.erase s.fp sa)).deliver pgn sa len m).respond
      ⟨.decoded, .fastPacket, pgn, sa, len.setWidth 32⟩)
  | kept (e : Entry) (h : t = (s.setFp (Table.set s.fp sa e)).respond ⟨.pending, .fastPacket, pgn, sa, pendingValue e⟩)

theorem ingest_effect (c : Config) (pgn : Pgn) (sa : SourceAddr) (dlc : BitVec 4) (d : Payload) (s : State) :
    IngestEffect pgn sa s (ingest c pgn sa dlc d s) := by
  rcases ingest_cases c pgn sa dlc d s with ⟨-, h⟩ | ⟨-, -, h⟩ | ⟨-, -, h⟩ <;> rw [h]
  · exact .nothing _ rfl (.inl rfl)
  · rcases ingestFirst_cases c pgn sa d s with ⟨-, h⟩ | ⟨-, hn, -, h⟩ | ⟨-, -, -, h⟩ | ⟨-, -, -, h⟩ <;> rw [h]
    · exact .delivered _ _ rfl
    · exact .nothing _ rfl (.inr (.inr ⟨rfl, rfl, hn⟩))
    · exact .removed _ rfl
    · exact .kept _ rfl
  · rcases ingestContinuation_cases c pgn sa d s with ⟨-, h⟩ | ⟨e, -, -, -, h⟩ <;> rw [h]
    · exact .nothing _ rfl (.inr (.inl rfl))
    · rcases ingestAccepted_cases c pgn sa (acceptFrame e d) s with ⟨-, h⟩ | ⟨-, -, h⟩ | ⟨-, -, h⟩ <;> rw [h]
      · exact .delivered _ _ rfl
      · exact .removed _ rfl
      · exact .kept _ rfl

end Sys2Proof.Machine
end

