-- ==== Sys2Proof/Laws/Invariant.lean ====
section
/-! SUPPORT. Each shared operation keeps the invariant (R23, R25, R27, R28, R31). -/

namespace Sys2Proof.Machine

variable {c : Config} {s : State}

theorem StoreInv.nil : StoreInv [] 0#8 := ⟨by simp, Memory.wf_nil, by simp⟩

theorem StoreInv.truncate {m : Memory} {len : BitVec 8} (hm : Memory.wf m) (hl : len.toNat ≤ bufBytes) :
    StoreInv (Memory.truncate m len.toNat) len := ⟨hl, Memory.truncate_wf _ hm, Memory.truncate_below m _⟩

/-- A response changes no part of the block. -/
theorem State.Inv.respond (h : State.Inv c s) (r : Response) : State.Inv c (s.respond r) :=
  ⟨h.table_wf, h.table_room, h.entries, h.message, h.reader, h.cursor, h.assembler⟩

theorem State.Inv.respondBadCommand (h : State.Inv c s) : State.Inv c s.respondBadCommand := h.respond _

theorem State.Inv.setCmdIn (h : State.Inv c s) (ins : List PortInput) : State.Inv c (s.setCmdIn ins) :=
  ⟨h.table_wf, h.table_room, h.entries, h.message, h.reader, h.cursor, h.assembler⟩

theorem State.Inv.setPa (h : State.Inv c s) {ws : List Word} (hw : decode ws = .error .incomplete) :
    State.Inv c (s.setPa ws) := ⟨h.table_wf, h.table_room, h.entries, h.message, h.reader, h.cursor, hw⟩

theorem State.Inv.setFp (h : State.Inv c s) {t : Table} (hw : Table.wf t) (hr : t.length ≤ c.fpEntries)
    (he : ∀ p ∈ t, Entry.Inv c p.2) : State.Inv c (s.setFp t) :=
  ⟨hw, hr, he, h.message, h.reader, h.cursor, h.assembler⟩

theorem State.Inv.setRd (h : State.Inv c s) {r : Reader} (hs : StoreInv r.buf r.len)
    (hc : r.cur.toNat ≤ 8 * r.len.toNat) : State.Inv c (s.setRd r) :=
  ⟨h.table_wf, h.table_room, h.entries, h.message, hs, hc, h.assembler⟩

theorem State.Inv.deliver (h : State.Inv c s) (pgn : Pgn) (sa : SourceAddr) {len : BitVec 8} {m : Memory}
    (hm : Memory.wf m) (hl : len.toNat ≤ bufBytes) : State.Inv c (s.deliver pgn sa len m) :=
  ⟨h.table_wf, h.table_room, h.entries, StoreInv.truncate hm hl, h.reader, h.cursor, h.assembler⟩

/-- A source's entry removed. -/
theorem State.Inv.erase (h : State.Inv c s) (sa : SourceAddr) : State.Inv c (s.setFp (Table.erase s.fp sa)) :=
  h.setFp (Table.erase_wf sa h.table_wf) (le_trans (Table.length_erase_le ..) h.table_room)
    fun p hp => h.entries p (Table.mem_erase hp).1

/-- A source's entry set, when it had one or the table had room (R212, R23). -/
theorem State.Inv.set (h : State.Inv c s) {sa : SourceAddr} {e : Entry} (he : Entry.Inv c e)
    (hroom : Table.find s.fp sa ≠ none ∨ s.fp.length ≠ c.fpEntries) :
    State.Inv c (s.setFp (Table.set s.fp sa e)) := by
  refine h.setFp (Table.set_wf sa e h.table_wf) ?_ fun p hp => ?_
  · rw [Table.length_set]
    have := h.table_room
    rcases hroom with hf | hl
    · have := Table.length_erase_lt hf
      omega
    · have := Table.length_erase_le s.fp sa
      omega
  · rcases Table.mem_set hp with rfl | hp
    · exact he
    · exact h.entries p hp

theorem Entry.Inv.newEntry {pgn : Pgn} {d : Payload} (hd : 7 ≤ d.b1.toNat) (hf : 1 < c.fpMaxFrames) :
    Entry.Inv c (newEntry pgn d) where
  hw_low := le_refl 6
  hw_high := by show 6 ≤ 223; omega
  incomplete := hd
  frames_low := le_refl 1
  frames_high := hf
  fresh := Nat.succ_pos _
  data_wf := Memory.ofBytes_wf (by simp [firstFrameBytes, bufBytes])
  data_below := Memory.writeBytes_below (by simp) (le_refl 6)

theorem Entry.Inv.acceptFrame {e : Entry} (h : Entry.Inv c e) {d : Payload} (hk : frameIndex d.b0 ≠ 0#5)
    (hc : (acceptFrame e d).hw.toNat < e.decl.toNat) (hf : (acceptFrame e d).frames.toNat < c.fpMaxFrames) :
    Entry.Inv c (acceptFrame e d) where
  hw_low := by
    have := h.hw_low
    rw [acceptFrame_hw]
    omega
  hw_high := by
    have := h.hw_high
    have := (frameOffset_bounds hk).2
    rw [acceptFrame_hw]
    omega
  incomplete := hc
  frames_low := by
    rw [acceptFrame_frames]
    omega
  frames_high := hf
  fresh := Nat.succ_pos _
  data_wf := acceptFrame_data_wf d h.data_wf hk
  data_below := acceptFrame_data_below d h.data_below

theorem ageEntry_age (e : Entry) : (ageEntry e).age.toNat = min (e.age.toNat + 1) 65535 := by
  simp only [ageEntry, BitVec.toNat_ofNat]
  omega

/-- TICK keeps the invariant: the entries it keeps are not stale (R243). -/
theorem State.Inv.tick (h : State.Inv c s) : State.Inv c (s.setFp (Table.tick c s.fp)) := by
  refine h.setFp (Table.tick_wf c h.table_wf) ?_ fun p hp => ?_
  · have := Table.length_tick c s.fp
    have := h.table_room
    omega
  · obtain ⟨hp, hst⟩ := List.mem_filter.1 hp
    obtain ⟨q, hq, rfl⟩ := List.mem_map.1 hp
    have he := h.entries q hq
    refine ⟨he.hw_low, he.hw_high, he.incomplete, he.frames_low, he.frames_high, ?_, he.data_wf, he.data_below⟩
    simpa [isStale] using hst

/-- An ingest keeps the invariant (R201). -/
theorem State.Inv.ingest (h : State.Inv c s) (pgn : Pgn) (sa : SourceAddr) (dlc : BitVec 4) (d : Payload) :
    State.Inv c (ingest c pgn sa dlc d s) := by
  rcases ingest_cases c pgn sa dlc d s with ⟨-, h1⟩ | ⟨-, -, h1⟩ | ⟨-, hk, h1⟩ <;> rw [h1]
  · exact h.respond _
  · rcases ingestFirst_cases c pgn sa d s with ⟨hd, h2⟩ | ⟨-, -, -, h2⟩ | ⟨-, -, -, h2⟩ | ⟨hd, hroom, hf, h2⟩ <;> rw [h2]
    · exact ((h.erase sa).deliver _ _ (Memory.ofBytes_wf (by simp [firstFrameBytes, bufBytes]))
        (by unfold bufBytes; omega)).respond _
    · exact h.respond _
    · exact (h.erase sa).respond _
    · exact (h.set (Entry.Inv.newEntry hd hf) hroom).respond _
  · rcases ingestContinuation_cases c pgn sa d s with ⟨-, h2⟩ | ⟨e, he, -, -, h2⟩ <;> rw [h2]
    · exact h.respond _
    · have hei := h.entries _ (Table.mem_of_find he)
      have hhw : e.hw.toNat ≤ bufBytes := hei.hw_high
      have hoff := (frameOffset_bounds hk).2
      have hacc := acceptFrame_hw e d
      rcases ingestAccepted_cases c pgn sa (acceptFrame e d) s with ⟨hd, h3⟩ | ⟨-, -, h3⟩ | ⟨hd, hf, h3⟩ <;> rw [h3]
      · exact ((h.erase sa).deliver _ _ (acceptFrame_data_wf d hei.data_wf hk) (by omega)).respond _
      · exact (h.erase sa).respond _
      · exact (h.set (hei.acceptFrame hk hd hf) (.inl (by simp [he]))).respond _

/-- A take keeps the invariant: the cursor stays within the reader's bits (R132). -/
theorem State.Inv.take (h : State.Inv c s) (n : BitVec 6) (form : TakeForm) :
    State.Inv c (takeCommand n form s) := by
  rcases takeCommand_cases n form s with ⟨-, h1⟩ | ⟨-, -, h1⟩ | ⟨hl, hf, h1⟩ <;> rw [h1]
  · exact h.respondBadCommand
  · exact (h.setRd (r := setAbort s.rd) h.reader h.cursor).respond _
  · have hfit := ((takeFails_eq_false (legalWidth_iff.1 hl).1).1 hf).2
    refine (h.setRd (r := { s.rd with cur := BitVec.ofNat 11 (s.rd.cur.toNat + n.toNat) }) h.reader ?_).respond _
    show (BitVec.ofNat 11 (s.rd.cur.toNat + n.toNat)).toNat ≤ 8 * s.rd.len.toNat
    rw [cursor_after_take hfit]
    exact hfit

end Sys2Proof.Machine
end

