-- ==== Sys2Proof/Laws/PerInstr.lean ====
section
/-! SUPPORT. Statements about instructions as syntax, with one lemma for each constructor of Instr. -/

namespace Sys2Proof.Laws.PacketLength

/-- Each command that an instruction stands for is one packet: its words begin with a first word whose opcode gives exactly as
many words as there are (R72, R73, R95). -/
def Statement (i : Instr) : Prop :=
  ∀ j ∈ commandsOf i, ∃ w0 ws, encode j = w0 :: ws ∧ (encode j).length = packetLength w0

/-- The length of a packet depends on nothing but the opcode of its first word (R73). -/
theorem packetLength_of_opcode {w0 : Word} {op : BitVec 4} (h : opcode w0 = op) :
    packetLength w0 = packetLength (op ++ 0#28 : BitVec (4 + 28)) := by
  have h' : opcode (op ++ 0#28 : BitVec (4 + 28)) = op := opcode_wordPlain op
  unfold packetLength
  rw [h, h']

/-- A command that is one packet. -/
theorem of_packet {i : Instr} {w0 : Word} {ws : List Word} (hi : commandsOf i = [i]) (he : encode i = w0 :: ws)
    (hl : ws.length + 1 = packetLength w0) : Statement i := by
  intro j hj
  rw [hi, List.mem_singleton] at hj
  subst hj
  exact ⟨w0, ws, he, by rw [he, List.length_cons, hl]⟩

theorem iddec (id : Ident) : Statement (.iddec id) :=
  of_packet rfl rfl (by rw [packetLength_of_opcode (opcode_wordPlain _)]; rfl)

theorem dispatch (id : Ident) (dlc : BitVec 4) (data : Payload) : Statement (.dispatch id dlc data) :=
  of_packet rfl rfl (by rw [packetLength_of_opcode (opcode_wordCount _ _)]; rfl)

theorem fpingest (id : Ident) (dlc : BitVec 4) (data : Payload) : Statement (.fpingest id dlc data) :=
  of_packet rfl rfl (by rw [packetLength_of_opcode (opcode_wordCount _ _)]; rfl)

theorem fpevict (sa : SourceAddr) : Statement (.fpevict sa) :=
  of_packet rfl rfl (by rw [packetLength_of_opcode (opcode_wordEvict _)]; rfl)

theorem fpflush : Statement .fpflush := of_packet rfl rfl (by decide)

theorem tick : Statement .tick := of_packet rfl rfl (by decide)

theorem bfloadm : Statement .bfloadm := of_packet rfl rfl (by decide)

theorem bfloadi (len : BitVec 4) (data : Payload) : Statement (.bfloadi len data) :=
  of_packet rfl rfl (by rw [packetLength_of_opcode (opcode_wordCount _ _)]; rfl)

theorem bftakeU (n : BitVec 6) : Statement (.bftakeU n) :=
  of_packet rfl rfl (by rw [packetLength_of_opcode (opcode_wordTake _ _)]; rfl)

theorem bftakeS (n : BitVec 6) : Statement (.bftakeS n) :=
  of_packet rfl rfl (by rw [packetLength_of_opcode (opcode_wordTake _ _)]; rfl)

theorem reserved0 : Statement .reserved0 := of_packet rfl rfl (by decide)

theorem reservedA : Statement .reservedA := of_packet rfl rfl (by decide)

theorem reservedB : Statement .reservedB := of_packet rfl rfl (by decide)

theorem reservedC : Statement .reservedC := of_packet rfl rfl (by decide)

theorem reservedD : Statement .reservedD := of_packet rfl rfl (by decide)

theorem reservedE : Statement .reservedE := of_packet rfl rfl (by decide)

theorem reservedF : Statement .reservedF := of_packet rfl rfl (by decide)

/-- A pseudo-instruction or a frame-space row: the command it stands for is one packet. -/
theorem of_command {i j : Instr} (hi : commandsOf i = [j]) (hj : commandsOf j = [j]) (h : Statement j) : Statement i := by
  intro k hk
  rw [hi, ← hj] at hk
  exact h k hk

theorem bfskip (n : BitVec 6) : Statement (.bfskip n) := of_command rfl rfl (bftakeU n)

theorem ticks (k : Nat) : Statement (.ticks k) := by
  intro j hj
  obtain ⟨-, rfl⟩ := List.mem_replicate.1 hj
  exact tick _ (List.mem_singleton.2 rfl)

theorem pdu2 (id : Ident) : Statement (.pdu2 id) := of_command rfl rfl (iddec id)

theorem pdu1 (id : Ident) : Statement (.pdu1 id) := of_command rfl rfl (iddec id)

theorem fpFirst (id : Ident) (data : Payload) : Statement (.fpFirst id data) := of_command rfl rfl (fpingest id 8#4 data)

theorem fpCont (id : Ident) (data : Payload) : Statement (.fpCont id data) := of_command rfl rfl (fpingest id 8#4 data)

end Sys2Proof.Laws.PacketLength
end

