-- ==== Sys2Proof/Tests/Slice0.lean ====
section
/-! SUPPORT. The model's own tests. Expected words and states are those of spec/95_test_vectors.md and of rule R94, at the reference configuration, or worked by hand from the rule that is named. Then, for each obligation that has hypotheses, a state and operands that meet them. -/

namespace Sys2Proof.Tests

open Sys2Proof.Machine

/-! ## Helpers -/

/-- The state that an outcome answers. -/
def nextState : Host.Outcome State Fault Refusal → Option State
  | .next t => some t
  | .fault _ => none
  | .refused _ => none

/-- The words of the newest response. -/
def lastWords (t : State) : Option (List Word) := t.rspOut.getLast?.map Response.words

/-- The words of the response to an instruction that reads no parameter. -/
def answer (i : Instr) (s : State) : Option (List Word) := (nextState (exec i s)).bind lastWords

/-- A reader loaded with bytes, at a cursor. -/
def loaded (bytes : List Byte) (cur : BitVec 11) (abort : Bool) : State :=
  { State.reset with rd := ⟨Memory.ofBytes bytes, BitVec.ofNat 8 bytes.length, cur, abort⟩ }

/-- The entry of section 1.7: sequence 2, declared length 20, one frame. -/
def entry20 : Entry := ⟨129284#18, 2#3, 20#8, 6#8, Memory.ofBytes [1#8, 2#8, 3#8, 4#8, 5#8, 6#8], 1#8, 0#16⟩

/-- A state whose table is given. -/
def withTable (t : Table) : State := { State.reset with fp := t }

/-- A state whose next inputs are words. -/
def sending (ws : List Word) : State := { State.reset with cmdIn := ws.map PortInput.word }

/-- Source 0x23 of PGN 129284, and two payloads of it (section 2.4). -/
def navId : Ident := 0x0DF90423#29
def firstFrame20 : Payload := ⟨0x40#8, 20#8, 1#8, 2#8, 3#8, 4#8, 5#8, 6#8⟩
def contFrame1 : Payload := ⟨0x41#8, 7#8, 8#8, 9#8, 10#8, 11#8, 12#8, 13#8⟩
def zeros : Payload := ⟨0#8, 0#8, 0#8, 0#8, 0#8, 0#8, 0#8, 0#8⟩

/-! ## WellFormed: an ill-formed term for each check -/

theorem test_wf_dispatch_dlc : (Instr.dispatch navId 9#4 zeros).wellFormed = false := by decide
theorem test_wf_fpingest_dlc : (Instr.fpingest navId 9#4 zeros).wellFormed = false := by decide
theorem test_wf_bfloadi_len : (Instr.bfloadi 9#4 zeros).wellFormed = false := by decide
theorem test_wf_bftakeU_zero : (Instr.bftakeU 0#6).wellFormed = false := by decide
theorem test_wf_bftakeU_33 : (Instr.bftakeU 33#6).wellFormed = false := by decide
theorem test_wf_bftakeS_zero : (Instr.bftakeS 0#6).wellFormed = false := by decide
theorem test_wf_bftakeS_33 : (Instr.bftakeS 33#6).wellFormed = false := by decide
theorem test_wf_bfskip_zero : (Instr.bfskip 0#6).wellFormed = false := by decide
theorem test_wf_bfskip_33 : (Instr.bfskip 33#6).wellFormed = false := by decide
theorem test_wf_pdu2_of_239 : (Instr.pdu2 0x00EF0000#29).wellFormed = false := by decide
theorem test_wf_pdu1_of_240 : (Instr.pdu1 0x00F01200#29).wellFormed = false := by decide
theorem test_wf_fpFirst_of_index_1 : (Instr.fpFirst navId contFrame1).wellFormed = false := by decide
theorem test_wf_fpCont_of_index_0 : (Instr.fpCont navId firstFrame20).wellFormed = false := by decide
theorem test_wf_legal : ([.dispatch navId 8#4 zeros, .bfloadi 0#4 zeros, .bftakeU 32#6, .bftakeS 1#6, .pdu2 navId,
    .pdu1 0x00EF0000#29, .fpFirst navId firstFrame20, .fpCont navId contFrame1] : List Instr).all Instr.wellFormed = true := by
  decide

/-! ## Decoding: words written bit by bit from the formats R74 to R80 -/

theorem test_decode_iddec :
    decode [0b00010000000000000000000000000000#32, 0b00001101111100000001000000000000#32]
      = .ok (.iddec 0b01101111100000001000000000000#29) := by decide

theorem test_decode_dispatch :
    decode [0b00100011000000000000000000000000#32, 0b00001001111100010001001000000001#32,
        0b00000100000000110000001000000001#32, 0b00001000000001110000011000000101#32]
      = .ok (.dispatch 0x09F11201#29 3#4 ⟨1#8, 2#8, 3#8, 4#8, 5#8, 6#8, 7#8, 8#8⟩) := by decide

theorem test_decode_fpingest :
    decode [0b00111000000000000000000000000000#32, 0b11101101111110010000010000100011#32,
        0b00000010000000010001010001000000#32, 0b00000110000001010000010000000011#32]
      = .ok (.fpingest navId 8#4 firstFrame20) := by decide

theorem test_decode_fpevict : decode [0b01000000000000000000000000100011#32] = .ok (.fpevict 0x23#8) := by decide
theorem test_decode_fpflush : decode [0b01010000000000000000000000000000#32] = .ok .fpflush := by decide
theorem test_decode_tick : decode [0b01100000000000000000000000000000#32] = .ok .tick := by decide
theorem test_decode_bfloadm : decode [0b01110000000000000000000000000000#32] = .ok .bfloadm := by decide

theorem test_decode_bfloadi :
    decode [0b10000010000000000000000000000000#32, 0b00000000000000000011010000010010#32, 0b0#32]
      = .ok (.bfloadi 2#4 ⟨0x12#8, 0x34#8, 0#8, 0#8, 0#8, 0#8, 0#8, 0#8⟩) := by decide

theorem test_decode_bftakeU : decode [0b10010000000000000000000000001100#32] = .ok (.bftakeU 12#6) := by decide
theorem test_decode_bftakeS : decode [0b10010000000000000000000001100000#32] = .ok (.bftakeS 32#6) := by decide
theorem test_decode_reserved0 : decode [0b00001111111111111111111111111111#32] = .ok .reserved0 := by decide
theorem test_decode_reservedA : decode [0b10100000000000000000000000000000#32] = .ok .reservedA := by decide
theorem test_decode_reservedB : decode [0b10110000000000000000000000000001#32] = .ok .reservedB := by decide
theorem test_decode_reservedC : decode [0b11000000000000000000000000000010#32] = .ok .reservedC := by decide
theorem test_decode_reservedD : decode [0b11010000000000000000000000000100#32] = .ok .reservedD := by decide
theorem test_decode_reservedE : decode [0b11100000000000000000000000001000#32] = .ok .reservedE := by decide
theorem test_decode_reservedF : decode [0b11110001001000110100010101100111#32] = .ok .reservedF := by decide

/-- R93: the pseudo-instructions assemble to the words of the commands; R82: an assembler refuses a width of 33. -/
theorem test_assemble_pseudo : assemble (.bfskip 4) = some [0b10010000000000000000000000000100#32] ∧
    assemble (.ticks 2) = some [0b01100000000000000000000000000000#32, 0b01100000000000000000000000000000#32] ∧
    assemble (.bfskip 33) = none := by decide

/-- The frame-space rows are presented by IDDEC and FPINGEST packets (log entry 3). -/
theorem test_encode_frame_rows : encode (.pdu2 0x00F01200#29) = [0x10000000#32, 0x00F01200#32] ∧
    encode (.pdu1 0x00EF1200#29) = [0x10000000#32, 0x00EF1200#32] ∧
    encode (.fpFirst navId firstFrame20) = [0x38000000#32, 0x0DF90423#32, 0x02011440#32, 0x06050403#32] ∧
    encode (.fpCont navId contFrame1) = [0x38000000#32, 0x0DF90423#32, 0x09080741#32, 0x0D0C0B0A#32] := by decide

/-- R84: SBZ bits; sections 2.1, 2.2, 2.3, 2.5, 2.6. -/
theorem test_decode_sbz : ∀ ws ∈ ([[0x10000001#32, 0x0DF01000#32], [0x28000001#32, 0x09F11201#32, 0#32, 0#32],
    [0x82000001#32, 0x0000FFFF#32, 0#32], [0x90000088#32], [0x40000100#32], [0x50000001#32], [0x60000001#32],
    [0x70000100#32]] : List (List Word)), decode ws = .error .nonZeroSbz := by decide

theorem test_decode_incomplete : decode [] = .error .incomplete ∧ decode [0x10000001#32] = .error .incomplete ∧
    decode [0x28000000#32, 0#32, 0#32] = .error .incomplete := by decide

/-! ## The two names that the host asks about -/

theorem test_table_word_dispatch : decodeTableWord 128 0x01ABB4304CA9FF2E0DF0100028000000
    = some (.dispatch 0x0DF01000#29 8#4 ⟨46#8, 255#8, 169#8, 76#8, 48#8, 180#8, 171#8, 1#8⟩) := by decide

/-- The table gives rows of several words only their first: the operand words are zeros. -/
theorem test_table_word_first_only : decodeTableWord 32 0x82000000 = some (.bfloadi 2#4 zeros) ∧
    decodeTableWord 32 0x10000000 = some (.iddec 0#29) ∧ decodeTableWord 32 0x60000001 = none := by decide

/-- The very next step after reset runs the placed instruction. -/
theorem test_withFetchWord_bfloadi :
    (nextState (step (State.reset.withFetchWord 96 0x000000000000341282000000))).bind lastWords
      = some [0x00000000#32, 0x00000010#32] := by decide

theorem test_withFetchWord_fpevict :
    (nextState (step (State.reset.withFetchWord 32 0x40000023))).bind lastWords
      = some [0x00000023#32, 0x00000000#32] := by decide

/-! ## IDDEC, PDU1, PDU2 (sections 1.1 and 2.1) -/

theorem test_iddec_system_time :
    lastWords (identCommand referenceConfig 0x0DF01000#29 State.reset) = some [0x05F01000#32, 0x8DF01000#32] := by decide

theorem test_iddec_all_ones :
    lastWords (identCommand referenceConfig 0x1FFFFFFF#29 State.reset) = some [0x03FFFFFF#32, 0x9FFFFFFF#32] := by decide

theorem test_pdu1_drops_ps :
    lastWords (identCommand referenceConfig 0x18EAFF00#29 State.reset) = some [0x00EA0000#32, 0x18EAFF00#32] := by decide

theorem test_pdu2_keeps_ps :
    lastWords (identCommand referenceConfig 0x00F01200#29 State.reset) = some [0x00F01200#32, 0x80F01200#32] := by decide

/-! ## The bit-field reader (sections 1.2 and 2.2) -/

theorem test_bfloadi_bits : answer (.bfloadi 3#4 ⟨0xAB#8, 0xCD#8, 0xEF#8, 1#8, 0#8, 0#8, 0#8, 0#8⟩) State.reset
    = some [0x00000000#32, 0x00000018#32] := by decide

/-- R142: a byte at an index of LEN or more is not stored. -/
theorem test_bfloadi_buffer :
    (nextState (exec (.bfloadi 2#4 ⟨0x12#8, 0x34#8, 0x56#8, 0#8, 0#8, 0#8, 0#8, 0#8⟩) (loaded [1#8] 3#11 true))).map (·.rd)
      = some ⟨[(0, 0x12#8), (1, 0x34#8)], 2#8, 0#11, false⟩ := by decide

theorem test_bftakeU_16_unaligned :
    answer (.bftakeU 16#6) (loaded [0xAB#8, 0xCD#8, 0xEF#8] 4#11 false) = some [0x00000000#32, 0x0000DEBC#32] := by decide

theorem test_bftakeU_12_not_reversed :
    answer (.bftakeU 12#6) (loaded [0x12#8, 0x34#8] 4#11 false) = some [0x00000000#32, 0x00000234#32] := by decide

theorem test_bftakeS_sign_after_reversal :
    answer (.bftakeS 16#6) (loaded [0x00#8, 0x80#8] 0#11 false) = some [0x00000000#32, 0xFFFF8000#32] := by decide

theorem test_bftakeS_12_not_reversed :
    answer (.bftakeS 12#6) (loaded [0xA5#8, 0x0F#8] 0#11 false) = some [0x00000000#32, 0xFFFFFA50#32] := by decide

theorem test_bfskip_moves_on :
    (nextState (exec (.bfskip 4#6) (loaded [46#8, 255#8] 12#11 false))).map (fun t => (t.rd.cur, lastWords t))
      = some (16#11, some [0x00000000#32, 0x0000000F#32]) := by decide

/-- One bit too many: PARSE_ERROR, the flag is set and the cursor stays. -/
theorem test_bfskip_fails :
    (nextState (exec (.bfskip 9#6) (loaded [0xFF#8] 0#11 false))).map (fun t => (t.rd.cur, t.rd.abort, lastWords t))
      = some (0#11, true, some [0x50000000#32, 0x00000000#32]) := by decide

/-- Section 2.3: BFLOADM after a delivery of 3 bytes. -/
theorem test_bfloadm : (nextState (exec .bfloadm { State.reset with msg := ⟨127250#18, 1#8, 3#8, [(0, 1#8), (1, 2#8), (2, 3#8)]⟩ })).map
    (fun t => (t.rd, lastWords t))
      = some (⟨[(0, 1#8), (1, 2#8), (2, 3#8)], 3#8, 0#11, false⟩, some [0x01F11201#32, 0x00000018#32]) := by decide

/-! ## DISPATCH (sections 1.9 and 2.3) -/

theorem test_dispatch_single :
    (fun t => (t.msg, lastWords t)) (dispatchCommand referenceConfig 0x09F11201#29 3#4 ⟨1#8, 2#8, 3#8, 9#8, 0#8, 0#8, 0#8, 0#8⟩ State.reset)
      = (⟨127250#18, 1#8, 3#8, [(0, 1#8), (1, 2#8), (2, 3#8)]⟩, some [0x15F11201#32, 0x00000003#32]) := by decide

/-- An unknown PGN is UNKNOWN even with a short payload. -/
theorem test_dispatch_unknown :
    lastWords (dispatchCommand referenceConfig 0x00EF0000#29 3#4 contFrame1 State.reset)
      = some [0x30EF0000#32, 0x00000000#32] := by decide

/-! ## FPINGEST, FP_FIRST, FP_CONT (sections 1.6, 1.7 and 2.4) -/

theorem test_fpingest_short_dlc :
    lastWords (dispatchCommand referenceConfig navId 7#4 ⟨64#8, 34#8, 204#8, 55#8, 29#8, 16#8, 0#8, 0#8⟩ State.reset)
      = some [0x59F90423#32, 0x00000000#32] := by decide

/-- The table's last slot: with `FP_ENTRIES = 1` a second source is refused. -/
theorem test_fpingest_full_table :
    lastWords (ingestCommand (referenceWith 2 31 0) 0x0DF90403#29 8#4 firstFrame20 (withTable [(1#8, entry20)]))
      = some [0x69F90403#32, 0x00000001#32] := by decide

theorem test_fpFirst_delivers_at_once :
    (fun t => (t.msg, lastWords t)) (ingestCommand referenceConfig navId 8#4 ⟨0x20#8, 5#8, 10#8, 11#8, 12#8, 13#8, 14#8, 99#8⟩ State.reset)
      = (⟨129284#18, 0x23#8, 5#8, [(0, 10#8), (1, 11#8), (2, 12#8), (3, 13#8), (4, 14#8)]⟩,
          some [0x19F90423#32, 0x00000005#32]) := by decide

theorem test_fpFirst_makes_an_entry :
    (fun t => (t.fp, lastWords t)) (ingestCommand referenceConfig navId 8#4 firstFrame20 State.reset)
      = ([(0x23#8, entry20)], some [0x29F90423#32, 0x00021406#32]) := by decide

/-- Frame 2 lands at 13 to 19; bytes 6 to 12 are a hole; 20 bytes are delivered. -/
theorem test_fpCont_completes_with_a_hole :
    (fun t => (t.fp, t.msg, lastWords t))
      (ingestCommand referenceConfig navId 8#4 ⟨0x42#8, 14#8, 15#8, 16#8, 17#8, 18#8, 19#8, 20#8⟩ (withTable [(0x23#8, entry20)]))
      = ([], ⟨129284#18, 0x23#8, 20#8, [(0, 1#8), (1, 2#8), (2, 3#8), (3, 4#8), (4, 5#8), (5, 6#8), (13, 14#8), (14, 15#8),
            (15, 16#8), (16, 17#8), (17, 18#8), (18, 19#8), (19, 20#8)]⟩, some [0x19F90423#32, 0x00000014#32]) := by decide

theorem test_fpCont_mismatch : answer (.fpCont navId ⟨0x61#8, 7#8, 8#8, 9#8, 10#8, 11#8, 12#8, 13#8⟩) (withTable [(0x23#8, entry20)])
    = some [0x49F90423#32, 0x00000061#32] := by decide

/-! ## Reassembly control (section 2.5) -/

theorem test_fpevict : (nextState (exec (.fpevict 1#8) (withTable [(1#8, entry20), (2#8, entry20)]))).map (fun t => (t.fp, lastWords t))
    = some ([(2#8, entry20)], some [0x01F90401#32, 0x00000001#32]) := by decide

theorem test_fpflush : (nextState (exec .fpflush (withTable [(1#8, entry20), (3#8, entry20)]))).map (fun t => (t.fp, lastWords t))
    = some ([], some [0x00000000#32, 0x00000002#32]) := by decide

/-- The second entry reaches age 3 and is evicted; the first gets one tick older. -/
theorem test_tick : (fun t => (t.fp, lastWords t))
      (tickCommand referenceConfig (withTable [(1#8, entry20), (2#8, { entry20 with age := 2#16 })]))
    = ([(1#8, { entry20 with age := 1#16 })], some [0x70000000#32, 0x00000001#32]) := by decide

theorem test_ticks : (fun t => (t.fp, t.rspOut.map Response.words)) (tickTimes referenceConfig 3 (withTable [(1#8, entry20), (2#8, entry20)]))
    = ([], [[0x00000000#32, 0#32], [0x00000000#32, 0#32], [0x70000000#32, 2#32]]) := by decide

/-! ## Reserved opcodes (section 2.6), reset (section 2.7) -/

theorem test_reserved : ∀ i ∈ [Instr.reserved0, .reservedA, .reservedB, .reservedC, .reservedD, .reservedE, .reservedF],
    answer i State.reset = some [0x80000000#32, 0x00000000#32] := by decide

theorem test_reset_memory : Memory.wf State.reset.msg.bytes ∧ Memory.wf State.reset.rd.buf ∧ Table.wf State.reset.fp := by decide

/-- Section 2.7 step 3: two words of a DISPATCH, then `rst`: the partial packet is discarded without a response. -/
theorem test_reset_discards_partial :
    nextState (step { State.reset with pa := [0x28000000#32, 0x0DF01000#32], cmdIn := [.rst 0, .word 0x60000000#32] })
      = some { State.reset with cmdIn := [.word 0x60000000#32] } := by decide

/-! ## The consumer's codecs (sections 1.4 and 1.5) -/

theorem test_vessel_heading : decodeMessage vesselHeading
    ⟨127250#18, 1#8, 8#8, Memory.ofBytes [159#8, 255#8, 255#8, 255#8, 127#8, 185#8, 6#8, 253#8]⟩
      = some [159#32, 65535#32, 32767#32, 1721#32, 3#32] := by decide

theorem test_cog_sog : decodeMessage cogSogRapidUpdate
    ⟨129026#18, 5#8, 8#8, Memory.ofBytes [226#8, 255#8, 255#8, 255#8, 255#8, 255#8, 255#8, 255#8]⟩
      = some [226#32, 3#32, 63#32, 65535#32, 65535#32] ∧ referenceLabel 3 = .label "Error" ∧ timeSourceLabel 15 = .unmapped 15 := by
  decide

/-- Log entry 22: the take of a field of width 33 answers BAD_COMMAND, and there is no record though 64 bits remain. -/
theorem test_record_illegal_width :
    readRecord [⟨"wide", 33#6, .unsigned, .plain⟩] (loaded [1#8, 2#8, 3#8, 4#8, 5#8, 6#8, 7#8, 8#8] 0#11 false).rd = none := by decide

/-- Section 1.4: heading 6.5535 rad, deviation 3.2767 rad, variation 0.1721 rad, reference 3 (Error). -/
theorem test_vessel_heading_readings : readMessage referenceConfig vesselHeading
    ⟨127250#18, 1#8, 8#8, Memory.ofBytes [159#8, 255#8, 255#8, 255#8, 127#8, 185#8, 6#8, 253#8]⟩
      = some [.number 159, .quantity (mkRat 65535 10000) .radian, .quantity (mkRat 32767 10000) .radian,
          .quantity (mkRat 1721 10000) .radian, .enumeration (.label "Error")] := by decide

/-- Section 1.3: time-source 15 is unmapped, date 19625 days, time 2803 seconds. -/
theorem test_system_time_readings : readMessage referenceConfig systemTime
    ⟨126992#18, 0#8, 8#8, Memory.ofBytes [46#8, 255#8, 169#8, 76#8, 48#8, 180#8, 171#8, 1#8]⟩
      = some [.number 46, .enumeration (.unmapped 15), .number 15, .quantity 19625 .day, .quantity 2803 .second] := by decide

/-! ## Witnesses: a state and operands that meet the hypotheses of each obligation -/

theorem witness_DecodeReadsBackEveryEncodedCommand :
    commandsOf (.dispatch 0x1FFFFFFF#29 15#4 contFrame1) = [.dispatch 0x1FFFFFFF#29 15#4 contFrame1] ∧
    commandsOf (.bftakeS 0#6) = [.bftakeS 0#6] := by decide

theorem witness_IdentifierWordTopBitsAreIgnored :
    (0x1FFFFFFF#32).toNat / 2 ^ 28 = 1 ∧ (0x28000000#32).toNat / 2 ^ 28 = 2 ∧ (0x38000000#32).toNat / 2 ^ 28 = 3 ∧
    (0xFDF01000#32).toNat % 2 ^ 29 = (0x1DF01000#32).toNat % 2 ^ 29 := by decide

theorem witness_PayloadBytesPastTheCountAreIgnored :
    (∀ i, i < (0#4).toNat → (payloadBytes firstFrame20).getD i 0#8 = (payloadBytes contFrame1).getD i 0#8) ∧
    (∀ i, i < (7#4).toNat → (payloadBytes firstFrame20).getD i 0#8 = (payloadBytes { firstFrame20 with b7 := 0#8 }).getD i 0#8) := by
  decide

theorem witness_DecoderAgreesWithTheOpcodeMap :
    packetLength 0x28000000#32 ≤ [0#32, 0#32, 0#32].length + 1 ∧ packetLength 0xF1234567#32 ≤ ([] : List Word).length + 1 ∧
    decode [0x28000000#32, 0#32, 0#32, 0#32] = .ok (.dispatch 0#29 8#4 zeros) := by decide

theorem witness_NonZeroSbzFieldIsTurnedAway :
    ({ sending [0x0DF01000#32] with pa := [0x10000001#32] } : State).cmdIn = .word 0x0DF01000#32 :: [] ∧
    [0x10000001#32] ++ [0x0DF01000#32] = 0x10000001#32 :: [0x0DF01000#32] ∧
    [0x10000001#32, 0x0DF01000#32].length = packetLength 0x10000001#32 ∧ 0x10000001#32 &&& sbzMask 0x10000001#32 ≠ 0#32 ∧
    [0x9000003F#32].length = packetLength 0x9000003F#32 ∧ 0x9000003F#32 &&& sbzMask 0x9000003F#32 = 0#32 := by decide

theorem witness_ReservedOpcodesAnswerBadCommand :
    (sending [0x0FFFFFFF#32]).pa = [] ∧ (sending [0x0FFFFFFF#32]).cmdIn = .word 0x0FFFFFFF#32 :: [] ∧
    (0x0FFFFFFF#32).toNat / 2 ^ 28 = 0 ∧ 10 ≤ (0xA0000000#32).toNat / 2 ^ 28 ∧ 10 ≤ (0xFFFFFFFF#32).toNat / 2 ^ 28 := by decide

theorem witness_IllegalOperandsAnswerBadCommand :
    9 ≤ (9#4).toNat ∧ 9 ≤ (15#4).toNat ∧ (0#6).toNat = 0 ∧ 33 ≤ (33#6).toNat ∧ 33 ≤ (63#6).toNat ∧
    (sending [0x90000021#32]).cmdIn = .word 0x90000021#32 :: [] ∧
    decode ((sending [0x90000021#32]).pa ++ [0x90000021#32]) = .ok (.bftakeU 33#6) ∧ (Instr.bftakeU 33#6).wellFormed = false := by
  decide

theorem witness_ResponseWordsCarryTheResponse : 9 ≤ (0x90000000#32).toNat / 2 ^ 28 ∧ 9 ≤ (0xFFFFFFFF#32).toNat / 2 ^ 28 := by decide

theorem witness_AssemblerRefusesOutOfRangeValues :
    assembleLine (.bfloadi 2 [0xFF#8, 0xFF#8]) = some (.bfloadi 2#4 ⟨0xFF#8, 0xFF#8, 0#8, 0#8, 0#8, 0#8, 0#8, 0#8⟩) ∧
    assembleLine (.bftakeU 32) = some (.bftakeU 32#6) ∧ assembleLine (.bftakeU 33) = none ∧
    (2 ^ 29 - 1 < 2 ^ 29 ∧ ([] : List Byte).length = 0 ∧ (List.replicate 8 0xFF#8).length = 8) ∧
    ¬ (0 < 2 ^ 29 ∧ 9 ≤ 8 ∧ (List.replicate 9 0xFF#8).length = 9) ∧ ¬ (8 ≤ 8 ∧ (List.replicate 7 0xFF#8).length = 8) ∧
    ¬ (1 ≤ 0 ∧ 0 ≤ 32) ∧ 255 < 256 := by decide

theorem witness_PgnFollowsTheAddressingFormat :
    (0x00EF1200#29).toNat / 2 ^ 16 % 256 < 240 ∧ 240 ≤ (0x00F01200#29).toNat / 2 ^ 16 % 256 := by decide

theorem witness_IdentifierDecodeReportsEveryField :
    240 ≤ (0x00F01200#29).toNat / 2 ^ 16 % 256 ∧ (0x00EF1200#29).toNat / 2 ^ 16 % 256 < 240 := by decide

/-- Both takes: a width that is a multiple of 8 and one that is not, each up to the last bit. -/
theorem witness_UnsignedTakeReadsTheNextBits :
    (loaded [0xAB#8, 0xCD#8, 0xEF#8] 8#11 false).rd.abort = false ∧
    (loaded [0xAB#8, 0xCD#8, 0xEF#8] 8#11 false).rd.cur.toNat + (16#6).toNat ≤ 8 * (loaded [0xAB#8, 0xCD#8, 0xEF#8] 8#11 false).rd.len.toNat ∧
    (loaded [0x12#8, 0x34#8] 4#11 false).rd.cur.toNat + (12#6).toNat ≤ 8 * (loaded [0x12#8, 0x34#8] 4#11 false).rd.len.toNat ∧
    (16#6).toNat % 8 = 0 ∧ (12#6).toNat % 8 ≠ 0 := by decide

theorem witness_SignedTakeExtendsTheReorderedValue :
    1 ≤ (32#6).toNat ∧ (32#6).toNat ≤ 32 ∧ (loaded [0#8, 0#8, 0#8, 0x80#8] 0#11 false).rd.abort = false ∧
    (loaded [0#8, 0#8, 0#8, 0x80#8] 0#11 false).rd.cur.toNat + (32#6).toNat
      ≤ 8 * (loaded [0#8, 0#8, 0#8, 0x80#8] 0#11 false).rd.len.toNat := by decide

theorem witness_FailedTakeSetsAbortAndKeepsTheCursor :
    1 ≤ (9#6).toNat ∧ (9#6).toNat ≤ 32 ∧ (loaded [0xFF#8, 0xFF#8] 0#11 true).rd.abort = true ∧
    8 * (loaded [0xFF#8] 0#11 false).rd.len.toNat < (loaded [0xFF#8] 0#11 false).rd.cur.toNat + (9#6).toNat := by decide

theorem witness_AbortIsStickyUntilALoad :
    (loaded [0xFF#8] 0#11 true).rd.abort = true ∧
    (∀ i ∈ [Instr.bftakeU 8#6, .tick, .fpflush, .bftakeS 0#6], isLoad i = false) ∧
    isTake (.bftakeU 8#6) = true ∧ (Instr.bftakeU 8#6).wellFormed = true := by decide

theorem witness_LoadInlineHoldsTheInlineBytes : (0#4).toNat ≤ 8 ∧ (8#4).toNat ≤ 8 := by decide

theorem witness_DecodingTheSameBytesGivesTheSameResults :
    isLoad .bfloadm = true ∧ Instr.bfloadm.wellFormed = true ∧ (∀ i ∈ [Instr.bftakeU 8#6, .bfskip 4#6], isTake i = true) ∧
    (loaded [1#8] 3#11 true).msg = State.reset.msg ∧
    (∃ t, execAll [.bfloadm, .bftakeU 8#6, .bfskip 4#6] (loaded [1#8] 3#11 true) = .next t) ∧
    (∃ t, execAll [.bfloadm, .bftakeU 8#6, .bfskip 4#6] State.reset = .next t) :=
  ⟨by decide, by decide, by decide, by decide, ⟨_, rfl⟩, ⟨_, rfl⟩⟩

theorem witness_RecordExistsWhenTheLayoutFits :
    (∀ f ∈ navigationData, 1 ≤ f.width.toNat ∧ f.width.toNat ≤ 32) ∧
    (loaded [226#8, 255#8, 255#8, 255#8, 255#8, 255#8] 0#11 false).rd.abort = false ∧
    (loaded [226#8, 255#8, 255#8, 255#8, 255#8, 255#8] 0#11 false).rd.cur.toNat
      ≤ 8 * (loaded [226#8, 255#8, 255#8, 255#8, 255#8, 255#8] 0#11 false).rd.len.toNat ∧
    readRecord cogSogRapidUpdate (loaded [226#8, 255#8, 255#8, 255#8, 255#8, 255#8] 0#11 false).rd
      = some [226#32, 3#32, 63#32, 65535#32, 65535#32] := by decide

theorem witness_FieldProgramRunsGiveTheRecord :
    (∀ f ∈ cogSogRapidUpdate, 1 ≤ f.width.toNat ∧ f.width.toNat ≤ 32) ∧
    decodeMessage cogSogRapidUpdate ⟨129026#18, 5#8, 6#8, Memory.ofBytes [226#8, 255#8, 255#8, 255#8, 255#8, 255#8]⟩
      = some [226#32, 3#32, 63#32, 65535#32, 65535#32] ∧
    decodeMessage cogSogRapidUpdate ⟨129026#18, 5#8, 5#8, Memory.ofBytes [226#8, 255#8, 255#8, 255#8, 255#8]⟩ = none := by decide

theorem witness_SystemTimeRecordReadsItsLayout :
    (⟨126992#18, 0#8, 8#8, Memory.ofBytes [46#8, 255#8, 169#8, 76#8, 48#8, 180#8, 171#8, 1#8]⟩ : Message).len = 8#8 := by decide

theorem witness_VesselHeadingRecordReadsItsLayout :
    (⟨127250#18, 1#8, 8#8, Memory.ofBytes [159#8, 255#8, 255#8, 255#8, 127#8, 185#8, 6#8, 253#8]⟩ : Message).len = 8#8 := by decide

theorem witness_DispatchRoutesByFrameClass :
    (0#4).toNat ≤ 8 ∧ (8#4).toNat ≤ 8 ∧ referenceConfig.pgnClass (pgnOf 0x00EF0000#29) = .unknown ∧
    referenceConfig.pgnClass (pgnOf 0x09F11201#29) = .single ∧ referenceConfig.pgnClass (pgnOf navId) = .fastPacket := by decide

theorem witness_ShortFastPacketFrameIsAParseError :
    (0#4).toNat ≤ 7 ∧ (7#4).toNat ≤ 7 ∧ referenceConfig.pgnClass (pgnOf navId) = .fastPacket := by decide

theorem witness_ShortMessageIsDeliveredAtOnce :
    (0xE0#8).toNat % 32 = 0 ∧ (0#8).toNat ≤ 6 ∧ (6#8).toNat ≤ 6 := by decide

/-- A source that has an entry, and a table with room; a frame budget of 1 and of 2. -/
theorem witness_FirstFrameMakesANewEntry :
    firstFrame20.b0.toNat % 32 = 0 ∧ 7 ≤ ({ firstFrame20 with b1 := 7#8 } : Payload).b1.toNat ∧
    Table.find (withTable [(0x23#8, entry20)]).fp (sourceAddress navId) ≠ none ∧
    State.reset.fp.length ≠ (referenceWith 2 0 0).fpEntries ∧ (referenceWith 2 0 0).fpMaxFrames = 1 ∧
    2 ≤ (referenceWith 2 1 0).fpMaxFrames := by decide

theorem witness_FullTableRefusesANewSource :
    firstFrame20.b0.toNat % 32 = 0 ∧ 7 ≤ firstFrame20.b1.toNat ∧
    Table.find (withTable [(1#8, entry20)]).fp (sourceAddress navId) = none ∧
    (withTable [(1#8, entry20)]).fp.length = (referenceWith 2 31 0).fpEntries := by decide

/-- A table of one entry for each source address. -/
def everySource : Table := (List.range 256).map fun a => (BitVec.ofNat 8 a, entry20)

theorem witness_FullTable_canonical : Table.wf everySource ∧ everySource.length = 256 := by
  refine ⟨?_, by simp [everySource]⟩
  refine List.pairwise_map.2 (List.pairwise_lt_range.imp_of_mem ?_)
  intro a b ha hb hab
  have := List.mem_range.1 ha
  have := List.mem_range.1 hb
  simp only [BitVec.toNat_ofNat]
  omega

/-- No entry; another sequence id; another PGN. -/
theorem witness_MismatchedContinuationChangesNothing :
    contFrame1.b0.toNat % 32 ≠ 0 ∧ Table.find State.reset.fp (sourceAddress navId) = none ∧
    Table.find (withTable [(0x23#8, entry20)]).fp (sourceAddress navId) = some entry20 ∧
    entry20.seq.toNat ≠ (0x61#8).toNat / 32 ∧ entry20.pgn ≠ pgnOf 0x0DF80423#29 := by decide

/-- Sequence and PGN match: the frame completes 13 bytes, leaves 14 pending, or exceeds a budget of 2. -/
theorem witness_AcceptedContinuationIsPlacedByItsIndex :
    contFrame1.b0.toNat % 32 ≠ 0 ∧ Table.find (withTable [(0x23#8, entry20)]).fp (sourceAddress navId) = some entry20 ∧
    entry20.seq.toNat = contFrame1.b0.toNat / 32 ∧ entry20.pgn = pgnOf navId ∧
    ({ entry20 with decl := 13#8 } : Entry).decl.toNat ≤ (acceptFrame { entry20 with decl := 13#8 } contFrame1).hw.toNat ∧
    (acceptFrame { entry20 with decl := 14#8 } contFrame1).hw.toNat < (14#8).toNat ∧
    (referenceWith 2 1 0).fpMaxFrames ≤ (acceptFrame entry20 contFrame1).frames.toNat ∧
    (acceptFrame entry20 contFrame1).frames.toNat < (referenceWith 2 2 0).fpMaxFrames := by decide

theorem witness_ContinuationFramesPlaceInAnyOrder :
    Memory.wf entry20.data ∧ frameIndex contFrame1.b0 ≠ 0#5 ∧ frameIndex 0x5F#8 ≠ 0#5 ∧
    frameIndex contFrame1.b0 ≠ frameIndex 0x5F#8 ∧ frameIndex contFrame1.b0 = frameIndex 0x61#8 := by decide

theorem witness_OverlongDeclarationNeverCompletes :
    (0x5F#8).toNat % 32 ≠ 0 ∧
    Table.find (withTable [(0x23#8, { entry20 with decl := 224#8, hw := 223#8 })]).fp (sourceAddress navId)
      = some { entry20 with decl := 224#8, hw := 223#8 } ∧ 224 ≤ (224#8).toNat ∧ (223#8).toNat ≤ 223 := by decide

theorem witness_EvictDiscardsOneSource :
    Table.find (withTable [(0x23#8, entry20)]).fp 0x23#8 = some entry20 ∧
    Table.find (withTable [(0x23#8, entry20)]).fp 0x24#8 = none := by decide

theorem witness_FlushDiscardsEveryEntry : Table.wf (withTable [(1#8, entry20), (2#8, entry20)]).fp := by decide

theorem witness_TickAgesEveryEntry :
    Table.wf (withTable [(1#8, entry20), (2#8, { entry20 with age := 65535#16 })]).fp ∧
    Table.find (withTable [(1#8, entry20), (2#8, { entry20 with age := 65535#16 })]).fp 3#8 = none ∧
    Table.find (withTable [(1#8, entry20), (2#8, { entry20 with age := 65535#16 })]).fp 1#8 = some entry20 ∧
    Table.find (withTable [(1#8, entry20), (2#8, { entry20 with age := 65535#16 })]).fp 2#8 = some { entry20 with age := 65535#16 } ∧
    min (entry20.age.toNat + 1) 65535 < referenceConfig.fpTimeoutTicks ∧
    referenceConfig.fpTimeoutTicks ≤ min ((65535#16).toNat + 1) 65535 := by decide

/-- The invariant holds of a state with an entry, at the reference configuration. -/
theorem entry20_inv : Entry.Inv referenceConfig entry20 := by constructor <;> decide

theorem witness_TicksTimeOutIdleEntries :
    State.Inv referenceConfig (withTable [(0x23#8, entry20)]) ∧
    Table.find (withTable [(0x23#8, entry20)]).fp 1#8 = none ∧
    Table.find (withTable [(0x23#8, entry20)]).fp 0x23#8 = some entry20 ∧
    entry20.age.toNat + 2 < referenceConfig.fpTimeoutTicks ∧ referenceConfig.fpTimeoutTicks ≤ entry20.age.toNat + 3 := by
  refine ⟨⟨by decide, by decide, fun p hp => ?_, StoreInv.nil, StoreInv.nil, by decide, by decide⟩, by decide, by decide, by decide,
    by decide⟩
  rw [List.mem_singleton.1 hp]
  exact entry20_inv

theorem witness_StepRunsTheDecodedInstruction :
    ({ sending [0x0DF01000#32] with pa := [0x10000000#32] } : State).cmdIn = .word 0x0DF01000#32 :: [] ∧
    decode (({ sending [0x0DF01000#32] with pa := [0x10000000#32] } : State).pa ++ [0x0DF01000#32]) = .ok (.iddec 0x0DF01000#29) := by
  decide

theorem witness_PartialPacketOnlyFillsTheAssembler :
    (sending [0x28000000#32]).cmdIn = .word 0x28000000#32 :: [] ∧
    decode ((sending [0x28000000#32]).pa ++ [0x28000000#32]) = .error .incomplete ∧ State.reset.cmdIn = [] := by decide

theorem witness_ResetClearsTheBlock :
    ({ loaded [1#8] 3#11 true with cmdIn := [.rst 1, .word 0x60000000#32] } : State).cmdIn
      = .rst 1 :: [.word 0x60000000#32] := by decide

theorem witness_EveryPacketGetsExactlyOneResponse :
    (sending [0x60000000#32]).cmdIn = .word 0x60000000#32 :: [] ∧
    decode ((sending [0x60000000#32]).pa ++ [0x60000000#32]) ≠ .error .incomplete ∧
    decode ((sending [0x10000000#32]).pa ++ [0x10000000#32]) = .error .incomplete := by decide

theorem witness_SendingTheWordsRunsTheInstruction : (withTable [(1#8, entry20)]).pa = [] := by decide

theorem witness_OtherSourcesAreIsolated :
    (∃ t, exec (.fpevict 1#8) (withTable [(1#8, entry20), (2#8, entry20)]) = .next t) ∧
    actsOnEveryEntry (.fpevict 1#8) = false ∧ namedSource (.fpevict 1#8) = some 1#8 ∧
    (∃ t, exec (.bftakeU 8#6) (withTable [(1#8, entry20)]) = .next t) ∧ actsOnEveryEntry (.bftakeU 8#6) = false ∧
    namedSource (.bftakeU 8#6) = none :=
  ⟨⟨_, rfl⟩, by decide, by decide, ⟨_, rfl⟩, by decide, by decide⟩

/-- Two tables that agree on source 0x23 and on their length, and on nothing else. -/
theorem witness_OwnEntryAloneDecidesTheOutcome :
    Table.find (withTable [(1#8, entry20), (0x23#8, entry20)]).fp (sourceAddress navId)
      = Table.find (withTable [(0x23#8, entry20), (0x24#8, { entry20 with decl := 99#8 })]).fp (sourceAddress navId) ∧
    (withTable [(1#8, entry20), (0x23#8, entry20)]).fp.length
      = (withTable [(0x23#8, entry20), (0x24#8, { entry20 with decl := 99#8 })]).fp.length ∧
    (withTable [(1#8, entry20), (0x23#8, entry20)]).msg
      = (withTable [(0x23#8, entry20), (0x24#8, { entry20 with decl := 99#8 })]).msg := by decide

theorem witness_OnlyADeliveryWritesTheMessage : ∃ t, exec (.fpFirst navId ⟨0x20#8, 5#8, 10#8, 11#8, 12#8, 13#8, 14#8, 99#8⟩) State.reset = .next t :=
  ⟨_, rfl⟩

theorem witness_OnlyTakesAndLoadsWriteTheReader :
    (∃ t, exec .tick (loaded [1#8] 3#11 true) = .next t) ∧ isTake .tick = false ∧ isLoad .tick = false ∧
    (∃ t, exec (.bftakeS 5#6) (loaded [1#8] 3#11 true) = .next t) ∧ isTake (.bftakeS 5#6) = true ∧
    (∃ t, exec .bfloadm (loaded [1#8] 3#11 true) = .next t) ∧ isLoad .bfloadm = true ∧ Instr.bfloadm.wellFormed = true :=
  ⟨⟨_, rfl⟩, by decide, by decide, ⟨_, rfl⟩, by decide, ⟨_, rfl⟩, by decide, by decide⟩

/-- An instruction answers one response of a status. -/
def AnswersWith (i : Instr) (s : State) (st : Status) : Prop :=
  ∃ t r, exec i s = .next t ∧ t.rspOut = s.rspOut ++ [r] ∧ r.status = st

/-- An entry so old that any timeout has passed. -/
def staleEntry : Entry := { entry20 with age := 65535#16 }

theorem isStale_staleEntry (c : Config) : isStale c (ageEntry staleEntry) = true := by
  have h : (ageEntry staleEntry).age.toNat = 65535 := by decide
  have := c.timeoutLessOne.isLt
  simp only [isStale, h, Config.fpTimeoutTicks, decide_eq_true_eq]
  omega

/-- A table that is full, whatever its capacity is. -/
def fullTable (c : Config) : Table := List.replicate c.fpEntries (1#8, entry20)

theorem ingest_fullTable (c : Config) :
    ingestCommand c navId 8#4 firstFrame20 (withTable (fullTable c))
      = (withTable (fullTable c)).respond ⟨.capacityExceeded, .fastPacket, pgnOf navId, sourceAddress navId, 1#32⟩ := by
  have hf : Table.find (fullTable c) (sourceAddress navId) = none :=
    Table.find_eq_none fun p hp => by
      rw [(List.mem_replicate.1 hp).2]
      decide
  have hl : (fullTable c).length = c.fpEntries := List.length_replicate ..
  have h7 : ¬ firstFrame20.b1.toNat ≤ 6 := by decide
  have hi : frameIndex firstFrame20.b0 = 0#5 := by decide
  rw [ingestCommand_eight, if_pos hi, ingestFirst, if_neg h7, if_pos ⟨hf, hl⟩]

/-- Each error of the statement is given somewhere, whatever the parameters are. -/
theorem witness_ErrorsChangeOnlyWhatTheirRuleSays :
    AnswersWith .reserved0 State.reset .badCommand ∧
    AnswersWith (.fpCont navId contFrame1) State.reset .seqMismatch ∧
    AnswersWith (.bftakeU 1#6) State.reset .parseError ∧ AnswersWith (.fpingest navId 7#4 zeros) State.reset .parseError ∧
    AnswersWith (.fpFirst navId firstFrame20) (withTable (fullTable Config.build)) .capacityExceeded ∧
    AnswersWith .tick (withTable [(1#8, staleEntry)]) .stale ∧ Table.wf (withTable [(1#8, staleEntry)]).fp ∧
    Table.find (withTable [(1#8, staleEntry)]).fp 1#8 = some staleEntry ∧
    Table.find (withTable [(1#8, staleEntry)]).fp 2#8 = none := by
  refine ⟨⟨_, _, rfl, rfl, rfl⟩, ⟨_, _, rfl, rfl, rfl⟩, ⟨_, _, rfl, rfl, rfl⟩, ⟨_, _, rfl, rfl, rfl⟩,
    ⟨_, _, rfl, by rw [ingest_fullTable]; rfl, rfl⟩, ⟨_, _, rfl, rfl, ?_⟩, by decide, by decide, by decide⟩
  have h : staleCount Config.build (withTable [(1#8, staleEntry)]).fp = 1 := by
    simp [staleCount, withTable, Table.older, isStale_staleEntry]
  rw [h]
  rfl

/-- The invariant at the block's own parameters: a message, a reader part-way, a packet part-way, and a word to come. -/
def midPacket : State :=
  { loaded [0xAB#8, 0xCD#8] 12#11 false with
    msg := ⟨129284#18, 0x23#8, 5#8, Memory.ofBytes [10#8, 11#8, 12#8, 13#8, 14#8]⟩
    pa := [0x82000000#32, 0x00003412#32]
    cmdIn := [.word 0#32] }

theorem witness_EveryStepKeepsTheInvariant : State.Inv Config.build midPacket ∧ ∃ t, step midPacket = .next t :=
  ⟨⟨List.Pairwise.nil, Nat.zero_le _, fun _ hp => absurd hp List.not_mem_nil, ⟨by decide, by decide, by decide⟩,
    ⟨by decide, by decide, by decide⟩, by decide, by decide⟩, ⟨_, rfl⟩⟩

/-- A field of each scale, and one of none. -/
theorem witness_EveryScaledFieldHasItsUnit :
    ∀ name ∈ ["heading", "deviation", "variation", "cog", "bearing-origin-to-destination", "bearing-origin-to-waypoint", "sog",
        "waypoint-closing-velocity", "time-since-midnight", "eta-time", "date", "eta-date", "sid", "destination-latitude"],
      ∃ f ∈ systemTime ++ vesselHeading ++ cogSogRapidUpdate ++ navigationData, f.name = name := by decide

/-- A field of each enumeration, with its last labelled value and the first one after it. -/
theorem witness_EnumerationValuesAreData :
    (∀ name ∈ ["time-source", "calc-type", "reference", "cog-reference", "bearing-reference", "perpendicular-crossed",
        "arrival-circle-entered"],
      ∃ f ∈ systemTime ++ vesselHeading ++ cogSogRapidUpdate ++ navigationData, f.name = name) ∧
    ["unspecified", "True", "Magnetic", "Error"][(3#32).toNat]? = some "Error" ∧
    ["GPS", "GLONASS", "RadioStation", "LocalCesium", "LocalRubidium", "LocalCrystal"].length ≤ (6#32).toNat ∧
    ["GreatCircle", "Rhumbline"].length ≤ (2#32).toNat ∧ (3#32).toNat = (3#2).toNat := by decide

end Sys2Proof.Tests
end

/-! # The block's state: the invariant, isolation and safety

First the rules about what a command can do to the state; then the statements, each settled from those rules. -/

namespace Sys2Proof.Machine

/-! ## What an instruction can do to the state -/

/-- What a command that names a source does: it answers, with at most that source's entry changed, or it delivers a message of
which its DECODED response tells (R26, R164). -/
inductive SourceEffect (sa : SourceAddr) (s t : State) : Prop where
  | answers (fp : Table) (hfp : KeepsOtherSources sa s (s.setFp fp)) (r : Response) (hr : r.status ≠ .decoded)
      (h : t = (s.setFp fp).respond r)
  | delivers (fp : Table) (hfp : KeepsOtherSources sa s (s.setFp fp)) (len : BitVec 8) (m : Memory) (r : Response)
      (hr : r.status = .decoded) (hv : r.value.toNat = len.toNat)
      (h : t = ((s.setFp fp).deliver r.pgn r.sa len m).respond r)

/-- Everything that an instruction can do, by the part of the block that it writes (R33). -/
inductive ExecEffect (i : Instr) (s t : State) : Prop where
  | source (sa : SourceAddr) (hi : namedSource i = some sa) (h : SourceEffect sa s t)
  | everyEntry (hi : actsOnEveryEntry i = true) (fp : Table) (rs : List Response) (hrs : ∀ r ∈ rs, r.status ≠ .decoded)
      (h : t = { s with fp := fp, rspOut := s.rspOut ++ rs })
  | reader (hi : isTake i = true ∨ isLoad i = true) (rd : Reader) (r : Response) (hr : r.status ≠ .decoded)
      (h : t = (s.setRd rd).respond r)
  | answer (r : Response) (hr : r.status ≠ .decoded) (h : t = s.respond r)

section
variable (s : State)

theorem badCommandResponse_not_decoded : badCommandResponse.status ≠ .decoded := Status.noConfusion

theorem keepsOtherSources_refl (sa : SourceAddr) : KeepsOtherSources sa s (s.setFp s.fp) := fun _ _ => rfl

theorem keepsOtherSources_erase (sa : SourceAddr) : KeepsOtherSources sa s (s.setFp (Table.erase s.fp sa)) := by
  intro other hne
  simp [Table.find_erase, hne.symm]

theorem keepsOtherSources_set (sa : SourceAddr) (e : Entry) :
    KeepsOtherSources sa s (s.setFp (Table.set s.fp sa e)) := by
  intro other hne
  simp [Table.find_set, hne.symm]

theorem respond_sourceEffect (sa : SourceAddr) {r : Response} (hr : r.status ≠ .decoded) :
    SourceEffect sa s (s.respond r) := .answers s.fp (keepsOtherSources_refl s sa) r hr rfl

theorem ingest_sourceEffect (c : Config) (pgn : Pgn) (sa : SourceAddr) (dlc : BitVec 4) (d : Payload) :
    SourceEffect sa s (ingest c pgn sa dlc d s) := by
  cases ingest_effect c pgn sa dlc d s with
  | nothing r h hst =>
    rw [h]
    refine respond_sourceEffect s sa fun hr => ?_
    simp [hr] at hst
  | removed v h => exact .answers _ (keepsOtherSources_erase s sa) _ Status.noConfusion h
  | delivered len m h =>
    exact .delivers _ (keepsOtherSources_erase s sa) len m ⟨.decoded, .fastPacket, pgn, sa, len.setWidth 32⟩ rfl
      (BitVec.toNat_setWidth_of_le (by omega)) h
  | kept e h => exact .answers _ (keepsOtherSources_set s sa e) _ Status.noConfusion h

theorem ingestCommand_sourceEffect (c : Config) (id : Ident) (dlc : BitVec 4) (d : Payload) :
    SourceEffect (sourceAddress id) s (ingestCommand c id dlc d s) := by
  unfold ingestCommand
  split
  · exact ingest_sourceEffect s c _ _ dlc d
  · exact respond_sourceEffect s _ badCommandResponse_not_decoded

theorem deliverSingle_sourceEffect (id : Ident) (dlc : BitVec 4) (d : Payload) :
    SourceEffect (sourceAddress id) s (deliverSingle id dlc d s) := by
  have hv : (dlc.setWidth 32).toNat = (dlc.setWidth 8).toNat := by
    rw [BitVec.toNat_setWidth_of_le (by omega), BitVec.toNat_setWidth_of_le (by omega)]
  exact .delivers s.fp (keepsOtherSources_refl s _) _ _
    ⟨.decoded, .single, pgnOf id, sourceAddress id, dlc.setWidth 32⟩ rfl hv rfl

theorem dispatchCommand_sourceEffect (c : Config) (id : Ident) (dlc : BitVec 4) (d : Payload) :
    SourceEffect (sourceAddress id) s (dispatchCommand c id dlc d s) := by
  unfold dispatchCommand
  split
  · split
    · exact respond_sourceEffect s _ Status.noConfusion
    · exact deliverSingle_sourceEffect s id dlc d
    · exact ingest_sourceEffect s c _ _ dlc d
  · exact respond_sourceEffect s _ badCommandResponse_not_decoded

theorem evictCommand_sourceEffect (sa : SourceAddr) : SourceEffect sa s (evictCommand sa s) := by
  unfold evictCommand
  split
  · exact .answers _ (keepsOtherSources_erase s sa) _ Status.noConfusion rfl
  · exact respond_sourceEffect s sa Status.noConfusion

/-- A number of ticks writes the table alone, and delivers nothing (R93, R243). -/
theorem tickTimes_writes_table (c : Config) (k : Nat) : ∃ (fp : Table) (rs : List Response),
    (∀ r ∈ rs, r.status ≠ .decoded) ∧ tickTimes c k s = { s with fp := fp, rspOut := s.rspOut ++ rs } := by
  induction k generalizing s with
  | zero => exact ⟨s.fp, [], by simp, by simp [tickTimes]⟩
  | succ k ih =>
    obtain ⟨r, hr, ht⟩ : ∃ r : Response, r.status ≠ .decoded ∧
        tickCommand c s = (s.setFp (Table.tick c s.fp)).respond r := by
      refine ⟨_, ?_, rfl⟩
      split <;> exact Status.noConfusion
    obtain ⟨fp, rs, hrs, h⟩ := ih (tickCommand c s)
    refine ⟨fp, r :: rs, List.forall_mem_cons.2 ⟨hr, hrs⟩, ?_⟩
    rw [tickTimes, h, ht]
    simp [State.respond, State.setFp]

/-- BFTAKE writes the reader alone, and delivers nothing (R139, R140). -/
theorem takeCommand_writes_reader (n : BitVec 6) (form : TakeForm) :
    ∃ (rd : Reader) (r : Response), r.status ≠ .decoded ∧ takeCommand n form s = (s.setRd rd).respond r := by
  rcases takeCommand_cases n form s with ⟨-, h⟩ | ⟨-, -, h⟩ | ⟨-, -, h⟩
  · exact ⟨s.rd, _, badCommandResponse_not_decoded, h⟩
  · exact ⟨_, _, Status.noConfusion, h⟩
  · exact ⟨_, _, Status.noConfusion, h⟩

/-- BFLOADI is turned away, or loads the reader (R82, R142). -/
theorem loadInlineCommand_cases (len : BitVec 4) (d : Payload) :
    (legalCount len = false ∧ loadInlineCommand len d s = s.respondBadCommand) ∨
    (legalCount len = true ∧ loadInlineCommand len d s
      = (s.setRd (loadedReader (Memory.ofBytes ((payloadBytes d).take len.toNat)) (len.setWidth 8))).respond
          ⟨.ok, .unknown, 0#18, 0#8, BitVec.ofNat 32 (8 * len.toNat)⟩) := by
  unfold loadInlineCommand
  cases legalCount len <;> simp

theorem takeCommand_execEffect {i : Instr} (hi : isTake i = true) (n : BitVec 6) (form : TakeForm) :
    ExecEffect i s (takeCommand n form s) := by
  obtain ⟨rd, r, hr, h⟩ := takeCommand_writes_reader s n form
  exact .reader (.inl hi) rd r hr h

theorem loadInlineCommand_execEffect (len : BitVec 4) (d : Payload) :
    ExecEffect (.bfloadi len d) s (loadInlineCommand len d s) := by
  rcases loadInlineCommand_cases s len d with ⟨-, h⟩ | ⟨-, h⟩
  · exact .answer _ badCommandResponse_not_decoded h
  · exact .reader (.inr rfl) _ _ Status.noConfusion h

theorem tickTimes_execEffect {i : Instr} (hi : actsOnEveryEntry i = true) (c : Config) (k : Nat) :
    ExecEffect i s (tickTimes c k s) := by
  obtain ⟨fp, rs, hrs, h⟩ := tickTimes_writes_table s c k
  exact .everyEntry hi fp rs hrs h

end

/-- The effect of each row of the opcode table (R33). -/
theorem exec_effect : ∀ {i : Instr} {s t : State}, exec i s = .next t → ExecEffect i s t
  | .iddec _, _, _, rfl | .pdu2 _, _, _, rfl | .pdu1 _, _, _, rfl => .answer _ Status.noConfusion rfl
  | .dispatch _ _ _, s, _, rfl => .source _ rfl (dispatchCommand_sourceEffect s ..)
  | .fpingest _ _ _, s, _, rfl | .fpFirst _ _, s, _, rfl | .fpCont _ _, s, _, rfl =>
    .source _ rfl (ingestCommand_sourceEffect s ..)
  | .fpevict _, s, _, rfl => .source _ rfl (evictCommand_sourceEffect s _)
  | .fpflush, _, _, rfl => .everyEntry rfl _ [_] (List.forall_mem_singleton.2 Status.noConfusion) rfl
  | .tick, s, _, rfl => tickTimes_execEffect s rfl _ 1
  | .bfloadm, _, _, rfl => .reader (.inr rfl) _ _ Status.noConfusion rfl
  | .bfloadi _ _, s, _, rfl => loadInlineCommand_execEffect s ..
  | .bftakeU _, s, _, rfl | .bftakeS _, s, _, rfl | .bfskip _, s, _, rfl => takeCommand_execEffect s rfl ..
  | .reserved0, _, _, rfl | .reservedA, _, _, rfl | .reservedB, _, _, rfl | .reservedC, _, _, rfl
  | .reservedD, _, _, rfl | .reservedE, _, _, rfl | .reservedF, _, _, rfl =>
    .answer _ badCommandResponse_not_decoded rfl
  | .ticks _, s, _, rfl => tickTimes_execEffect s rfl ..

/-! ## The invariant -/

section
variable {c : Config} {s : State}

theorem State.Inv.reset : State.Inv c State.reset :=
  ⟨Table.wf_nil, Nat.zero_le _, fun _ hp => absurd hp List.not_mem_nil, StoreInv.nil, StoreInv.nil, le_refl 0, rfl⟩

/-- Reset: the two port fields, which it keeps, are no part of the invariant. -/
theorem State.Inv.applyReset (lost : Nat) : State.Inv c (s.applyReset lost) :=
  have h : State.Inv c State.reset := .reset
  ⟨h.table_wf, h.table_room, h.entries, h.message, h.reader, h.cursor, h.assembler⟩

/-- The bytes that a frame or an inline load carries, at a legal count, are a store of that length (R82). -/
theorem StoreInv.payload {k : BitVec 4} (hk : legalCount k = true) (d : Payload) :
    StoreInv (Memory.ofBytes ((payloadBytes d).take k.toNat)) (k.setWidth 8) := by
  have hlen : (k.setWidth 8).toNat = k.toNat := BitVec.toNat_setWidth_of_le (by omega)
  have h8 : k.toNat ≤ 8 := by simpa [legalCount] using hk
  have htake : ((payloadBytes d).take k.toNat).length ≤ k.toNat := List.length_take_le ..
  have hbuf : 8 ≤ bufBytes := by decide
  exact ⟨by omega, Memory.ofBytes_wf (by omega), Memory.writeBytes_below (by simp) (by omega)⟩

theorem State.Inv.tickTimes (h : State.Inv c s) (k : Nat) : State.Inv c (tickTimes c k s) := by
  induction k generalizing s with
  | zero => exact h
  | succ k ih => exact ih (h.tick.respond _)

variable (h : State.Inv c s)
include h

theorem State.Inv.flush : State.Inv c (flushCommand s) :=
  (h.setFp Table.wf_nil (Nat.zero_le _) fun _ hp => absurd hp List.not_mem_nil).respond _

theorem State.Inv.evict (sa : SourceAddr) : State.Inv c (evictCommand sa s) := by
  unfold evictCommand
  split
  · exact (h.erase sa).respond _
  · exact h.respond _

theorem State.Inv.ingestCommand (id : Ident) (dlc : BitVec 4) (d : Payload) :
    State.Inv c (ingestCommand c id dlc d s) := by
  unfold Machine.ingestCommand
  split
  · exact h.ingest _ _ dlc d
  · exact h.respondBadCommand

theorem State.Inv.dispatch (id : Ident) (dlc : BitVec 4) (d : Payload) : State.Inv c (dispatchCommand c id dlc d s) := by
  unfold dispatchCommand
  split
  · rename_i hk
    have hd := StoreInv.payload hk d
    split
    · exact h.respond _
    · exact (h.deliver _ _ hd.wf hd.len_high).respond _
    · exact h.ingest _ _ dlc d
  · exact h.respondBadCommand

/-- A loaded reader has its cursor at 0, within its bits. -/
theorem State.Inv.load {m : Memory} {len : BitVec 8} (hm : StoreInv m len) :
    State.Inv c (s.setRd (loadedReader m len)) := h.setRd hm (Nat.zero_le _)

theorem State.Inv.loadInline (len : BitVec 4) (d : Payload) : State.Inv c (loadInlineCommand len d s) := by
  rcases loadInlineCommand_cases s len d with ⟨-, h1⟩ | ⟨hk, h1⟩ <;> rw [h1]
  · exact h.respondBadCommand
  · exact (h.load (StoreInv.payload hk d)).respond _

end

/-- Every instruction keeps the invariant. -/
theorem State.Inv.exec {s : State} (h : State.Inv Config.build s) :
    ∀ {i : Instr} {t : State}, exec i s = .next t → State.Inv Config.build t
  | .iddec _, _, rfl | .pdu2 _, _, rfl | .pdu1 _, _, rfl => h.respond _
  | .dispatch _ _ _, _, rfl => h.dispatch ..
  | .fpingest _ _ _, _, rfl | .fpFirst _ _, _, rfl | .fpCont _ _, _, rfl => h.ingestCommand ..
  | .fpevict _, _, rfl => h.evict _
  | .fpflush, _, rfl => h.flush
  | .tick, _, rfl => h.tick.respond _
  | .bfloadm, _, rfl => (h.load h.message).respond _
  | .bfloadi _ _, _, rfl => h.loadInline ..
  | .bftakeU _, _, rfl | .bftakeS _, _, rfl | .bfskip _, _, rfl => h.take ..
  | .reserved0, _, rfl | .reservedA, _, rfl | .reservedB, _, rfl | .reservedC, _, rfl
  | .reservedD, _, rfl | .reservedE, _, rfl | .reservedF, _, rfl => h.respondBadCommand
  | .ticks _, _, rfl => h.tickTimes _

/-- One input keeps the invariant: a partial packet stays partial, and a whole one empties the assembler (R31). -/
theorem State.Inv.acceptInput {s t : State} (h : State.Inv Config.build s) {input : PortInput}
    (ht : acceptInput input s = .next t) : State.Inv Config.build t := by
  cases input with
  | word w =>
    have hempty : State.Inv Config.build (s.setPa []) := h.setPa rfl
    rcases acceptWord_cases w s with ⟨hd, h1⟩ | ⟨-, h1⟩ | ⟨i, -, h1⟩ <;> rw [Machine.acceptInput, h1] at ht
    · cases ht
      exact h.setPa hd
    · cases ht
      exact hempty.respondBadCommand
    · exact hempty.exec ht
  | rst lost =>
    cases ht
    exact .applyReset lost

/-- Settles O50: each input of the host keeps the invariant, and with no input the state stays. -/
theorem everyStepKeepsTheInvariant : Obligations.EveryStepKeepsTheInvariant := by
  intro s t h ht
  cases hin : s.cmdIn with
  | nil =>
    rw [step, takeInput_nil hin] at ht
    cases ht
    exact h
  | cons input rest =>
    rw [step_cons hin] at ht
    exact (h.setCmdIn rest).acceptInput ht

/-- Settles O51: the base case of O50. -/
theorem resetStateHasTheInvariant : Obligations.ResetStateHasTheInvariant := fun _ => .reset

/-- Settles O52: the reset state holds the values of R32, and an unlisted byte or source reads as none. -/
theorem resetStateHasTheSpecsValues : Obligations.ResetStateHasTheSpecsValues :=
  ⟨Table.find_nil, ⟨rfl, rfl, rfl, Memory.read_nil⟩, ⟨Memory.read_nil, rfl, rfl, rfl⟩, rfl⟩

/-! ## Isolation of sources -/

/-- Settles O45: a command that names a source keeps the other sources' entries, and only FPFLUSH, TICK and TICKS write the
table beside it. -/
theorem otherSourcesAreIsolated : Obligations.OtherSourcesAreIsolated := by
  intro i s t ht hevery
  cases exec_effect ht with
  | source sa hi h =>
    refine ⟨fun sa' hi' => ?_, fun hn => by simp [hi] at hn⟩
    obtain rfl : sa = sa' := Option.some.inj (hi.symm.trans hi')
    cases h with
    | answers fp hfp r hr h => exact h ▸ hfp
    | delivers fp hfp len m r hr hv h => exact h ▸ hfp
  | everyEntry hi => simp [hi] at hevery
  | reader hi rd r hr h => exact h ▸ ⟨fun _ _ _ _ => rfl, fun _ => rfl⟩
  | answer r hr h => exact h ▸ ⟨fun _ _ _ _ => rfl, fun _ => rfl⟩

/-- Two states that a command of a source cannot tell apart (R26, R214): the source has the same entry in both, there are as
many entries, and the message is the same. -/
structure SameForSource (sa : SourceAddr) (s s' : State) : Prop where
  entry : Table.find s.fp sa = Table.find s'.fp sa
  occupancy : s.fp.length = s'.fp.length
  message : s.msg = s'.msg

/-- From two states a command makes the same of the source's entry and of the message, and gives the same response. -/
def SameOutcome (sa : SourceAddr) (f : State → State) (s s' : State) : Prop :=
  Table.find (f s).fp sa = Table.find (f s').fp sa ∧ (f s).msg = (f s').msg ∧
    ∃ r : Response, (f s).rspOut = s.rspOut ++ [r] ∧ (f s').rspOut = s'.rspOut ++ [r]

/-- A delivery overwrites the message and removes the source's entry, whatever both were. -/
theorem deliver_sameOutcome (pgn : Pgn) (sa : SourceAddr) (s s' : State) (len : BitVec 8) (m : Memory) (r : Response) :
    SameOutcome sa (fun s => ((s.setFp (Table.erase s.fp sa)).deliver pgn sa len m).respond r) s s' :=
  ⟨by simp [Table.find_erase], rfl, r, rfl, rfl⟩

section
variable (c : Config) {pgn : Pgn} {sa : SourceAddr} {s s' : State} (h : SameForSource sa s s')
include h

theorem SameForSource.respond (r : Response) : SameOutcome sa (·.respond r) s s' := ⟨h.entry, h.message, r, rfl, rfl⟩

theorem SameForSource.erase (r : Response) :
    SameOutcome sa (fun s => (s.setFp (Table.erase s.fp sa)).respond r) s s' :=
  ⟨by simp [Table.find_erase], h.message, r, rfl, rfl⟩

theorem SameForSource.set (e : Entry) (r : Response) :
    SameOutcome sa (fun s => (s.setFp (Table.set s.fp sa e)).respond r) s s' :=
  ⟨by simp [Table.find_set], h.message, r, rfl, rfl⟩

theorem SameForSource.ingestFirst (d : Payload) : SameOutcome sa (ingestFirst c pgn sa d) s s' := by
  unfold SameOutcome Machine.ingestFirst
  rw [h.entry, h.occupancy]
  split_ifs
  · exact deliver_sameOutcome ..
  · exact h.respond _
  · exact h.erase _
  · exact h.set ..

theorem SameForSource.ingestAccepted (e : Entry) : SameOutcome sa (ingestAccepted c pgn sa e) s s' := by
  unfold SameOutcome Machine.ingestAccepted
  split_ifs
  · exact deliver_sameOutcome ..
  · exact h.erase _
  · exact h.set ..

theorem SameForSource.ingestContinuation (d : Payload) : SameOutcome sa (ingestContinuation c pgn sa d) s s' := by
  unfold SameOutcome Machine.ingestContinuation
  rw [h.entry]
  cases Table.find s'.fp sa with
  | none => exact h.respond _
  | some e =>
    dsimp only
    split_ifs
    · exact h.respond _
    · exact h.ingestAccepted c _

theorem SameForSource.ingest (dlc : BitVec 4) (d : Payload) : SameOutcome sa (ingest c pgn sa dlc d) s s' := by
  unfold SameOutcome Machine.ingest
  split_ifs
  · exact h.respond _
  · exact h.ingestFirst c d
  · exact h.ingestContinuation c d

theorem SameForSource.evict : SameOutcome sa (evictCommand sa) s s' := by
  unfold SameOutcome evictCommand
  rw [h.entry]
  cases Table.find s'.fp sa with
  | none => exact h.respond _
  | some e => exact h.erase _

end

section
variable (c : Config) {id : Ident} {s s' : State} (h : SameForSource (sourceAddress id) s s')
include h

theorem SameForSource.ingestCommand (dlc : BitVec 4) (d : Payload) :
    SameOutcome (sourceAddress id) (ingestCommand c id dlc d) s s' := by
  unfold SameOutcome Machine.ingestCommand
  split_ifs
  · exact h.ingest c dlc d
  · exact h.respond _

theorem SameForSource.dispatch (dlc : BitVec 4) (d : Payload) :
    SameOutcome (sourceAddress id) (dispatchCommand c id dlc d) s s' := by
  unfold SameOutcome dispatchCommand
  split_ifs
  · cases classOf c id with
    | unknown => exact h.respond _
    | single => exact ⟨h.entry, rfl, _, rfl, rfl⟩
    | fastPacket => exact h.ingest c dlc d
  · exact h.respond _

end

/-- Settles O46: each branch of the three commands reads the table through the source's own entry and the occupancy. -/
theorem ownEntryAloneDecidesTheOutcome : Obligations.OwnEntryAloneDecidesTheOutcome := by
  intro c id k d s s' hentry hocc hmsg f hf
  have h : SameForSource (sourceAddress id) s s' := ⟨hentry, hocc, hmsg⟩
  simp only [List.mem_cons, List.not_mem_nil, or_false] at hf
  rcases hf with rfl | rfl | rfl
  · exact h.dispatch c k d
  · exact h.ingestCommand c k d
  · exact h.evict

/-! ## What writes the message and the reader -/

/-- Settles O47: of all that an instruction can do, only a delivery writes the message, and only it answers DECODED. -/
theorem onlyADeliveryWritesTheMessage : Obligations.OnlyADeliveryWritesTheMessage := by
  intro i s t ht
  cases exec_effect ht with
  | source sa hi h =>
    cases h with
    | answers fp hfp r hr h => exact .inl (by simpa [h] using hr)
    | delivers fp hfp len m r hr hv h => exact .inr ⟨r, by simp [h], hr, by simp [h], by simp [h], by simp [h, hv]⟩
  | everyEntry hi fp rs hrs h => exact .inl (by simpa [h] using hrs)
  | reader hi rd r hr h => exact .inl (by simpa [h] using hr)
  | answer r hr h => exact .inl (by simpa [h] using hr)

/-- An instruction that is neither a take nor a load keeps the reader (R33). -/
theorem exec_keeps_reader {i : Instr} {s t : State} (ht : exec i s = .next t) (hi : isTake i = false)
    (hl : isLoad i = false) : t.rd = s.rd := by
  cases exec_effect ht with
  | source sa _ h =>
    cases h with
    | answers fp hfp r hr h => rw [h]; rfl
    | delivers fp hfp len m r hr hv h => rw [h]; rfl
  | everyEntry _ fp rs hrs h => rw [h]
  | reader hi' => simp [hi, hl] at hi'
  | answer r hr h => rw [h]; rfl

/-- A take reads the bytes and never clears the flag (R144). -/
theorem takeCommand_keeps_bytes (n : BitVec 6) (form : TakeForm) (s : State) :
    (takeCommand n form s).rd.buf = s.rd.buf ∧ (takeCommand n form s).rd.len = s.rd.len ∧
      (s.rd.abort = true → (takeCommand n form s).rd.abort = true) := by
  rcases takeCommand_cases n form s with ⟨-, h⟩ | ⟨-, -, h⟩ | ⟨-, -, h⟩ <;> simp [h]

theorem exec_take_keeps_bytes : ∀ {i : Instr} {s t : State}, exec i s = .next t → isTake i = true →
    t.rd.buf = s.rd.buf ∧ t.rd.len = s.rd.len ∧ (s.rd.abort = true → t.rd.abort = true)
  | .bftakeU n, s, _, rfl, _ | .bftakeS n, s, _, rfl, _ | .bfskip n, s, _, rfl, _ => takeCommand_keeps_bytes n _ s

theorem loadInlineCommand_starts_reader {len : BitVec 4} (hk : legalCount len = true) (d : Payload) (s : State) :
    (loadInlineCommand len d s).rd.abort = false ∧ (loadInlineCommand len d s).rd.cur = 0#11 := by
  rcases loadInlineCommand_cases s len d with ⟨hk', -⟩ | ⟨-, h⟩
  · simp [hk] at hk'
  · rw [h]
    exact ⟨rfl, rfl⟩

/-- A load that is not turned away leaves the flag clear and the cursor at 0 (R141, R142). -/
theorem exec_load_starts_reader : ∀ {i : Instr} {s t : State}, exec i s = .next t → isLoad i = true →
    i.wellFormed = true → t.rd.abort = false ∧ t.rd.cur = 0#11
  | .bfloadm, _, _, rfl, _, _ => ⟨rfl, rfl⟩
  | .bfloadi _ d, s, _, rfl, _, hk => loadInlineCommand_starts_reader hk d s

/-- Settles O48, from what each kind of instruction does to the reader. -/
theorem onlyTakesAndLoadsWriteTheReader : Obligations.OnlyTakesAndLoadsWriteTheReader := fun _ _ _ ht =>
  ⟨exec_keeps_reader ht, exec_take_keeps_bytes ht, exec_load_starts_reader ht⟩

/-! ## Steps that complete no packet -/

theorem acceptWord_of_incomplete {s : State} {w : Word} (h : decode (s.pa ++ [w]) = .error .incomplete) :
    acceptWord w s = .next (s.setPa (s.pa ++ [w])) := by simp [acceptWord, h]

/-- Settles O41: the assembler takes a word that completes no packet, and with no input nothing is taken. -/
theorem partialPacketOnlyFillsTheAssembler : Obligations.PartialPacketOnlyFillsTheAssembler := by
  refine ⟨fun s w ins hin hd => ?_, fun s hin => takeInput_nil hin⟩
  rw [step_cons hin]
  exact acceptWord_of_incomplete hd

end Sys2Proof.Machine

/-! # Packets: the decoder, the encoder and the opcode map

First what the decoder does with a list of words and with each opcode; then the statements about words and instructions. -/

namespace Sys2Proof

/-! ## How many words a packet has -/

/-- The table of R95, by the number that the opcode is. -/
theorem packetLength_eq (w0 : Word) :
    packetLength w0 = if w0.toNat / 2 ^ 28 = 1 then 2
      else if w0.toNat / 2 ^ 28 = 2 ∨ w0.toNat / 2 ^ 28 = 3 then 4
      else if w0.toNat / 2 ^ 28 = 8 then 3 else 1 := by
  unfold packetLength
  rw [opcode_toNat]
  split
  case h_5 h1 h2 h3 h8 =>
    rw [if_neg h1, if_neg (not_or.2 ⟨h2, h3⟩), if_neg h8]
  all_goals simp only [*]; rfl

theorem packetLength_bounds (w0 : Word) : 1 ≤ packetLength w0 ∧ packetLength w0 ≤ 4 := by
  rw [packetLength_eq]
  split_ifs <;> omega

/-- A packet of which every word is there decodes by its fields (R72). -/
theorem decode_of_complete {w0 : Word} {rest : List Word} (h : packetLength w0 ≤ rest.length + 1) :
    decode (w0 :: rest) = decodeFields w0 (rest.getD 0 0) (rest.getD 1 0) (rest.getD 2 0) := if_neg (not_lt.2 h)

/-- A packet is incomplete exactly when it has fewer words than its opcode needs (R31, R95). -/
theorem decode_eq_incomplete_iff {w0 : Word} {rest : List Word} :
    decode (w0 :: rest) = .error .incomplete ↔ rest.length + 1 < packetLength w0 := by
  by_cases h : rest.length + 1 < packetLength w0
  · exact iff_of_true (if_pos h) h
  · rw [decode_of_complete (not_lt.1 h)]
    exact iff_of_false (decodeFields_ne_incomplete w0 _ _ _) h

/-- The decoder reads a word only where the packet has one. -/
theorem decodeFields_congr {w0 w1 w1' w2 w2' w3 w3' : Word} (h1 : 2 ≤ packetLength w0 → w1 = w1')
    (h2 : 3 ≤ packetLength w0 → w2 = w2') (h3 : 4 ≤ packetLength w0 → w3 = w3') :
    decodeFields w0 w1 w2 w3 = decodeFields w0 w1' w2' w3' := by
  unfold packetLength at h1 h2 h3
  unfold decodeFields
  split <;> simp_all

/-- Words after the packet are not read (R95). -/
theorem decode_take {w0 : Word} {rest : List Word} (h : packetLength w0 ≤ rest.length + 1) :
    decode (w0 :: rest) = decode ((w0 :: rest).take (packetLength w0)) := by
  obtain ⟨n, hn⟩ : ∃ n, packetLength w0 = n + 1 := Nat.exists_eq_add_of_le' (packetLength_bounds w0).1
  have hlen : packetLength w0 ≤ (rest.take n).length + 1 := by rw [List.length_take]; omega
  have hword : ∀ i, i + 2 ≤ packetLength w0 → rest.getD i 0 = (rest.take n).getD i 0 := by
    intro i hi
    rw [List.getD_eq_getElem?_getD, List.getD_eq_getElem?_getD, List.getElem?_take_of_lt (by omega)]
  rw [hn, List.take_succ_cons, decode_of_complete h, decode_of_complete hlen]
  exact decodeFields_congr (hword 0) (hword 1) (hword 2)

/-- Fewer words than the packet has are an incomplete packet (R31). -/
theorem decode_of_fewer_words {w0 : Word} {ws sent left : List Word} (hlen : ws.length + 1 = packetLength w0)
    (h : sent ++ left = w0 :: ws) (hne : left ≠ []) : decode sent = .error .incomplete := by
  cases sent with
  | nil => rfl
  | cons w rest =>
    rw [List.cons_append, List.cons.injEq] at h
    obtain ⟨rfl, rfl⟩ := h
    have := List.length_pos_iff.2 hne
    rw [List.length_append] at hlen
    exact decode_eq_incomplete_iff.2 (by omega)

/-- Settles O4, from the table of R95 and the two facts about a list of words. -/
theorem packetLengthComesFromTheOpcodeAlone : Obligations.PacketLengthComesFromTheOpcodeAlone := by
  intro w0 rest op need
  have hneed : need = packetLength w0 := (packetLength_eq w0).symm
  rw [hneed]
  exact ⟨decode_eq_incomplete_iff, decode_take⟩

/-! ## The identifier word -/

theorem identField_congr {w1 w1' : Word} (h : w1.toNat % 2 ^ 29 = w1'.toNat % 2 ^ 29) :
    identField w1 = identField w1' :=
  BitVec.eq_of_toNat_eq (by rw [identField_toNat, identField_toNat, h])

/-- The commands with an identifier read the second word as the identifier alone (R75, R76). -/
theorem decodeFields_ident {w0 w1 w1' : Word} (w2 w3 : Word)
    (hop : w0.toNat / 2 ^ 28 = 1 ∨ w0.toNat / 2 ^ 28 = 2 ∨ w0.toNat / 2 ^ 28 = 3) (hid : identField w1 = identField w1') :
    decodeFields w0 w1 w2 w3 = decodeFields w0 w1' w2 w3 := by
  simp only [← opcode_toNat] at hop
  rcases hop with h | h | h <;> simp [decodeFields, h, hid]

/-- Settles O5: the identifier is all that the decoder reads of the word. -/
theorem identifierWordTopBitsAreIgnored : Obligations.IdentifierWordTopBitsAreIgnored := by
  intro w0 w1 w1' rest hop hw
  by_cases h : packetLength w0 ≤ (w1 :: rest).length + 1
  · rw [decode_of_complete h, decode_of_complete (rest := w1' :: rest) h]
    exact decodeFields_ident _ _ hop (identField_congr hw)
  · have h' : (w1' :: rest).length + 1 < packetLength w0 := not_le.1 h
    rw [decode_eq_incomplete_iff.2 (not_le.1 h), decode_eq_incomplete_iff.2 h']

/-! ## The encoder -/

theorem commandsOf_ticks_ne (k : Nat) : commandsOf (.ticks k) ≠ [.ticks k] := by
  intro h
  have : Instr.ticks k ∈ List.replicate k Instr.tick := by
    show Instr.ticks k ∈ commandsOf (.ticks k)
    rw [h]
    exact List.mem_singleton_self _
  cases (List.mem_replicate.1 this).2

/-- A packet of an instruction: as many words as the opcode of the first says, and fields that decode to the instruction. -/
structure IsPacketOf (i : Instr) (w0 : Word) (ws : List Word) : Prop where
  length : ws.length + 1 = packetLength w0
  fields : decodeFields w0 (ws.getD 0 0) (ws.getD 1 0) (ws.getD 2 0) = .ok i

theorem IsPacketOf.decode_eq {i : Instr} {w0 : Word} {ws : List Word} (h : IsPacketOf i w0 ws) :
    decode (w0 :: ws) = .ok i := by rw [decode_of_complete h.length.ge, h.fields]

/-- The encoder writes one packet for a command or a reserved opcode (R73 to R80). -/
theorem encode_isPacketOf : ∀ {i : Instr}, commandsOf i = [i] → ∃ w0 ws, encode i = w0 :: ws ∧ IsPacketOf i w0 ws
  | .iddec id, _ => ⟨_, _, rfl, by simp [packetLength], by simp [decodeFields]⟩
  | .dispatch id dlc data, _ | .fpingest id dlc data, _ => ⟨_, _, rfl, by simp [packetLength], by simp [decodeFields]⟩
  | .bfloadi len data, _ => ⟨_, _, rfl, by simp [packetLength], by simp [decodeFields]⟩
  | .fpevict sa, _ => ⟨_, _, rfl, by simp [packetLength], by simp [decodeFields]⟩
  | .bftakeU n, _ | .bftakeS n, _ => ⟨_, _, rfl, by simp [packetLength], by simp [decodeFields]⟩
  | .fpflush, _ | .tick, _ | .bfloadm, _ => ⟨_, _, rfl, rfl, rfl⟩
  | .reserved0, _ | .reservedA, _ | .reservedB, _ | .reservedC, _ | .reservedD, _ | .reservedE, _ | .reservedF, _ =>
    ⟨_, _, rfl, rfl, rfl⟩
  | .ticks k, h => absurd h (commandsOf_ticks_ne k)

/-- Settles O2: the encoder writes a packet of the instruction, and the words after it are not read. -/
theorem decodeReadsBackEveryEncodedCommand : Obligations.DecodeReadsBackEveryEncodedCommand := by
  intro i rest hi
  obtain ⟨w0, ws, he, hp⟩ := encode_isPacketOf hi
  have hlen := hp.length
  have htake : (w0 :: (ws ++ rest)).take (packetLength w0) = w0 :: ws := by
    rw [← hlen, List.take_succ_cons, List.take_left]
  have hle : packetLength w0 ≤ (ws ++ rest).length + 1 := by rw [List.length_append]; omega
  rw [he, List.cons_append, decode_take hle, htake, hp.decode_eq]

/-- Settles O3, row by row; TICKS is its TICK, repeated. -/
theorem everyInstructionAssemblesToCommands : Obligations.EveryInstructionAssemblesToCommands := by
  intro i
  cases i with
  | ticks k =>
    refine ⟨?_, fun j hj => by rw [(List.mem_replicate.1 hj).2]; rfl⟩
    show List.replicate k (wordPlain 0x6#4) = (List.replicate k Instr.tick).flatMap encode
    induction k with
    | zero => rfl
    | succ k ih => rw [List.replicate_succ, List.replicate_succ, List.flatMap_cons, ← ih]; rfl
  | _ => exact ⟨rfl, List.forall_mem_singleton.2 rfl⟩

end Sys2Proof

/-! # The opcode map

A row splits its mask into the bits that select it and the bits that should be zero; the decoder does the same. -/

namespace Sys2Proof

open Sys2Proof.Machine

/-! ## The bits of a field under its mask -/

/-- The mask of the `len` bits of a word from bit `lo` up. -/
def fieldMask (lo len : Nat) : Word := (BitVec.allOnes len).setWidth 32 <<< lo

theorem and_fieldMask (w : Word) (lo len : Nat) :
    w &&& fieldMask lo len = (w.extractLsb' lo len).setWidth 32 <<< lo := by
  ext i hi
  by_cases h : lo ≤ i
  · have : lo + (i - lo) = i := by omega
    simp [fieldMask, BitVec.getElem_shiftLeft, BitVec.getElem_setWidth, this, hi, Bool.and_comm, Bool.and_assoc]
  · simp [fieldMask, BitVec.getElem_shiftLeft, not_le.1 h]

/-- Two words agree under a field's mask exactly when they hold the same field. -/
theorem and_fieldMask_eq_iff {v w : Word} {lo len : Nat} (hb : lo + len ≤ 32) :
    v &&& fieldMask lo len = w &&& fieldMask lo len ↔ v.extractLsb' lo len = w.extractLsb' lo len := by
  simp only [and_fieldMask]
  refine ⟨fun h => ?_, fun h => by rw [h]⟩
  ext i hi
  have := congrArg (·.getLsbD (lo + i)) h
  have h32 : lo + i < 32 := by omega
  have h32' : i < 32 := by omega
  simpa [h32, h32', hi] using this

/-- A field is zero exactly when its bits under the mask are. -/
theorem extract_beq_zero {w : Word} {lo len : Nat} (hb : lo + len ≤ 32) :
    (w.extractLsb' lo len == 0#len) = (w &&& fieldMask lo len == 0#32) := by
  have h := and_fieldMask_eq_iff (v := w) (w := 0#32) hb
  simp only [BitVec.zero_and, BitVec.extractLsb'_zero] at h
  rw [Bool.eq_iff_iff, beq_iff_eq, beq_iff_eq, h]

/-! ## The SBZ bits and the rows -/

/-- The SBZ bits depend on nothing but the opcode (R84). -/
theorem sbzMask_congr {v w : Word} (h : opcode v = opcode w) : sbzMask v = sbzMask w := by
  have h' : v.toNat / 2 ^ 28 = w.toNat / 2 ^ 28 := by rw [← opcode_toNat, ← opcode_toNat, h]
  unfold sbzMask
  rw [h']

theorem packetLength_congr {v w : Word} (h : opcode v = opcode w) : packetLength v = packetLength w := by
  unfold packetLength
  rw [h]

/-- The bits by which a row is chosen: those of its mask that are not should-be-zero. -/
def OpcodeRow.keyMask (r : OpcodeRow) : Word := r.mask &&& ~~~ sbzMask r.value

/-- A first word has the opcode of a row, and of the two rows of BFTAKE the form. -/
def OpcodeRow.Selects (r : OpcodeRow) (w0 : Word) : Prop := w0 &&& r.keyMask = r.value

section
variable {r : OpcodeRow} {w0 : Word} (hr : r ∈ opcodeRows)
include hr

theorem OpcodeRow.mask_eq : r.mask = r.keyMask ||| sbzMask r.value := by
  revert r
  decide

theorem OpcodeRow.mask_key : r.mask &&& r.keyMask = r.keyMask := by
  revert r
  decide

theorem OpcodeRow.mask_sbz : r.mask &&& sbzMask r.value = sbzMask r.value := by
  revert r
  decide

theorem OpcodeRow.value_key : r.value &&& r.keyMask = r.value := by
  revert r
  decide

theorem OpcodeRow.value_sbz : r.value &&& sbzMask r.value = 0#32 := by
  revert r
  decide

theorem OpcodeRow.key_opcode : r.keyMask &&& fieldMask 28 4 = fieldMask 28 4 := by
  revert r
  decide

theorem OpcodeRow.words_value : r.words = packetLength r.value := by
  revert r
  decide

theorem OpcodeRow.Selects.opcode_eq (h : r.Selects w0) : opcode w0 = opcode r.value := by
  refine (and_fieldMask_eq_iff (by omega)).1 ?_
  rw [← h, BitVec.and_assoc, OpcodeRow.key_opcode hr]

theorem OpcodeRow.Selects.words_eq (h : r.Selects w0) : r.words = packetLength w0 := by
  rw [OpcodeRow.words_value hr, packetLength_congr (h.opcode_eq hr)]

/-- A row matches a first word that selects it and whose SBZ bits are zero, and no other. -/
theorem OpcodeRow.matchesWord_iff : r.matchesWord w0 = true ↔ r.Selects w0 ∧ w0 &&& sbzMask w0 = 0#32 := by
  rw [OpcodeRow.matchesWord, beq_iff_eq]
  constructor
  · intro h
    have hsel : r.Selects w0 := by
      rw [OpcodeRow.Selects, ← OpcodeRow.mask_key hr, ← BitVec.and_assoc, h, OpcodeRow.value_key hr]
    refine ⟨hsel, ?_⟩
    rw [sbzMask_congr (hsel.opcode_eq hr), ← OpcodeRow.mask_sbz hr, ← BitVec.and_assoc, h, OpcodeRow.value_sbz hr]
  · rintro ⟨hsel, hz⟩
    rw [sbzMask_congr (hsel.opcode_eq hr)] at hz
    rw [OpcodeRow.mask_eq hr, BitVec.and_or_distrib_left, hz, hsel, BitVec.or_zero]

end

/-- No word matches two rows whose values differ in a bit of both masks. -/
theorem OpcodeRow.not_both_match {a b : OpcodeRow} (h : a.value &&& b.mask ≠ b.value &&& a.mask) (w0 : Word) :
    ¬ (a.matchesWord w0 = true ∧ b.matchesWord w0 = true) := by
  simp only [OpcodeRow.matchesWord, beq_iff_eq]
  rintro ⟨ha, hb⟩
  rw [← ha, ← hb, BitVec.and_assoc, BitVec.and_assoc, BitVec.and_comm a.mask] at h
  exact h rfl

theorem opcodeRows_disjoint : opcodeRows.Pairwise fun a b => a.value &&& b.mask ≠ b.value &&& a.mask := by decide

/-! ## The decoder by rows -/

/-- A decode by the opcode map: it gives a command whose row the first word selects, unless a should-be-zero bit is set. -/
def DecodesByRow (w0 : Word) (e : Except Reject Instr) : Prop :=
  ∃ i, commandsOf i = [i] ∧ (∃ r ∈ opcodeRows, r.mnemonic = i.mnemonic ∧ r.Selects w0) ∧
    e = checkSbz (w0 &&& sbzMask w0 == 0#32) i

section
variable {w0 : Word} {r : OpcodeRow}

/-- The row of an opcode that has no other. -/
theorem selects_of_opcode {op : BitVec 4} (hop : opcode w0 = op) (hkey : r.keyMask = fieldMask 28 4)
    (hv : r.value = wordPlain op) : r.Selects w0 := by
  have hplain : ∀ op, wordPlain op &&& fieldMask 28 4 = wordPlain op := by decide
  rw [OpcodeRow.Selects, hkey, hv, ← hplain op]
  exact (and_fieldMask_eq_iff (by omega)).2 (hop.trans (opcode_wordPlain op).symm)

/-- The row of a form of BFTAKE (R79). -/
theorem selects_of_take {signed : BitVec 1} (hop : opcode w0 = 0x9#4) (hsigned : w0.extractLsb' 6 1 = signed)
    (hkey : r.keyMask = fieldMask 28 4 ||| fieldMask 6 1) (hv : r.value = wordTake signed 0#6) : r.Selects w0 := by
  have htake : ∀ signed, wordTake signed 0#6 &&& (fieldMask 28 4 ||| fieldMask 6 1) = wordTake signed 0#6 := by decide
  have h28 : w0 &&& fieldMask 28 4 = wordTake signed 0#6 &&& fieldMask 28 4 :=
    (and_fieldMask_eq_iff (by omega)).2 (hop.trans (opcode_wordTake signed 0#6).symm)
  have h6 : w0 &&& fieldMask 6 1 = wordTake signed 0#6 &&& fieldMask 6 1 :=
    (and_fieldMask_eq_iff (by omega)).2 (hsigned.trans (signed_wordTake signed 0#6).symm)
  rw [OpcodeRow.Selects, hkey, hv, BitVec.and_or_distrib_left, h28, h6, ← BitVec.and_or_distrib_left, htake]

/-- A row whose should-be-zero bits are one field. -/
theorem decodesByRow_of_selects {i : Instr} {lo len : Nat} (hr : r ∈ opcodeRows) (hm : r.mnemonic = i.mnemonic)
    (hi : commandsOf i = [i]) (hsel : r.Selects w0) (hsbz : sbzMask r.value = fieldMask lo len) (hb : lo + len ≤ 32) :
    DecodesByRow w0 (checkSbz (w0.extractLsb' lo len == 0#len) i) := by
  refine ⟨i, hi, ⟨r, hr, hm, hsel⟩, ?_⟩
  rw [extract_beq_zero hb, sbzMask_congr (hsel.opcode_eq hr), hsbz]

end

/-- The opcode map has one row for the opcode, and its should-be-zero bits are one field. -/
def isOnlyRow (m : String) (op : BitVec 4) (lo len : Nat) : Bool :=
  opcodeRows.any fun r => r.mnemonic = m ∧ r.keyMask = fieldMask 28 4 ∧ r.value = wordPlain op ∧
    sbzMask r.value = fieldMask lo len

section
variable {w0 : Word} {i : Instr} {op : BitVec 4} {lo len : Nat} (hop : (opcode w0).toNat = op.toNat)
  (hi : commandsOf i = [i])
include hop hi

theorem decodesByRow_of_opcode (hrow : isOnlyRow i.mnemonic op lo len = true) (hb : lo + len ≤ 32) :
    DecodesByRow w0 (checkSbz (w0.extractLsb' lo len == 0#len) i) := by
  simp only [isOnlyRow, List.any_eq_true, decide_eq_true_eq] at hrow
  obtain ⟨r, hr, hm, hkey, hv, hsbz⟩ := hrow
  exact decodesByRow_of_selects hr hm hi (selects_of_opcode (BitVec.eq_of_toNat_eq hop) hkey hv) hsbz hb

/-- A reserved opcode has no should-be-zero bits (R83). -/
theorem decodesByRow_of_reserved (hrow : isOnlyRow i.mnemonic op 0 0 = true) : DecodesByRow w0 (.ok i) := by
  simpa using decodesByRow_of_opcode hop hi hrow (by omega)

end

/-- The two rows of BFTAKE (R79). -/
theorem decodesByRow_take {w0 : Word} (hop : (opcode w0).toNat = 0x9) :
    DecodesByRow w0 (checkSbz (w0.extractLsb' 7 21 == 0#21)
      (if w0.extractLsb' 6 1 = 0#1 then .bftakeU (w0.extractLsb' 0 6) else .bftakeS (w0.extractLsb' 0 6))) := by
  have hop' : opcode w0 = 0x9#4 := BitVec.eq_of_toNat_eq hop
  split
  case isTrue h =>
    exact decodesByRow_of_selects (r := ⟨"BFTAKE.U", 1, 0x90000000#32, 0xFFFFFFC0#32⟩) (by decide) rfl rfl
      (selects_of_take hop' h (by decide) (by decide)) (by decide) (by omega)
  case isFalse h =>
    have h1 : w0.extractLsb' 6 1 = 1#1 := (BitVec.eq_zero_or_eq_one _).resolve_left h
    exact decodesByRow_of_selects (r := ⟨"BFTAKE.S", 1, 0x90000040#32, 0xFFFFFFC0#32⟩) (by decide) rfl rfl
      (selects_of_take hop' h1 (by decide) (by decide)) (by decide) (by omega)

/-- The decoder follows the opcode map, opcode by opcode (R73). -/
theorem decodeFields_byRow (w0 w1 w2 w3 : Word) : DecodesByRow w0 (decodeFields w0 w1 w2 w3) := by
  unfold decodeFields
  split
  case h_1 h => exact decodesByRow_of_reserved (op := 0x0#4) h rfl rfl
  case h_2 h => exact decodesByRow_of_opcode (op := 0x1#4) h rfl rfl (by omega)
  case h_3 h => exact decodesByRow_of_opcode (op := 0x2#4) h rfl rfl (by omega)
  case h_4 h => exact decodesByRow_of_opcode (op := 0x3#4) h rfl rfl (by omega)
  case h_5 h => exact decodesByRow_of_opcode (op := 0x4#4) h rfl rfl (by omega)
  case h_6 h => exact decodesByRow_of_opcode (op := 0x5#4) h rfl rfl (by omega)
  case h_7 h => exact decodesByRow_of_opcode (op := 0x6#4) h rfl rfl (by omega)
  case h_8 h => exact decodesByRow_of_opcode (op := 0x7#4) h rfl rfl (by omega)
  case h_9 h => exact decodesByRow_of_opcode (op := 0x8#4) h rfl rfl (by omega)
  case h_10 h => exact decodesByRow_take h
  case h_11 h => exact decodesByRow_of_reserved (op := 0xA#4) h rfl rfl
  case h_12 h => exact decodesByRow_of_reserved (op := 0xB#4) h rfl rfl
  case h_13 h => exact decodesByRow_of_reserved (op := 0xC#4) h rfl rfl
  case h_14 h => exact decodesByRow_of_reserved (op := 0xD#4) h rfl rfl
  case h_15 h => exact decodesByRow_of_reserved (op := 0xE#4) h rfl rfl
  case h_16 =>
    have h : (opcode w0).toNat = 0xF := by
      have := (opcode w0).isLt
      simp only [imp_false] at *
      omega
    exact decodesByRow_of_reserved (op := 0xF#4) h rfl rfl

/-- A complete packet decodes by the opcode map (R73, R84). -/
theorem decode_byRow {w0 : Word} {rest : List Word} (h : packetLength w0 ≤ rest.length + 1) :
    DecodesByRow w0 (decode (w0 :: rest)) := by
  rw [decode_of_complete h]
  exact decodeFields_byRow ..

/-- What the decoder gives is the instruction of a row that matches (R73), and never a pseudo-instruction or a frame-space
row (R93). -/
theorem decode_eq_ok {ws : List Word} {i : Instr} (h : decode ws = .ok i) :
    commandsOf i = [i] ∧ ∃ w0 rest, ws = w0 :: rest ∧ w0 &&& sbzMask w0 = 0#32 ∧
      ∃ r ∈ opcodeRows, r.mnemonic = i.mnemonic ∧ r.Selects w0 := by
  cases ws with
  | nil => cases h
  | cons w0 rest =>
    have hlen : packetLength w0 ≤ rest.length + 1 := by
      by_contra hl
      rw [decode_eq_incomplete_iff.2 (not_le.1 hl)] at h
      cases h
    obtain ⟨j, hj, hrow, hd⟩ := decode_byRow hlen
    rw [h, checkSbz] at hd
    split at hd
    case isTrue hz =>
      cases hd
      exact ⟨hj, w0, rest, rfl, beq_iff_eq.1 hz, hrow⟩
    case isFalse => cases hd

/-- A complete packet whose SBZ bits are zero decodes to an instruction (R84; log entry 4). -/
theorem decode_ok_of_sbz_zero {w0 : Word} {rest : List Word} (h : packetLength w0 ≤ rest.length + 1)
    (hz : w0 &&& sbzMask w0 = 0#32) : ∃ i, decode (w0 :: rest) = .ok i := by
  obtain ⟨i, -, -, hd⟩ := decode_byRow h
  exact ⟨i, by rw [hd, hz, beq_self_eq_true, checkSbz_true]⟩

theorem decode_of_sbz_nonZero {w0 : Word} {rest : List Word} (h : packetLength w0 ≤ rest.length + 1)
    (hz : w0 &&& sbzMask w0 ≠ 0#32) : decode (w0 :: rest) = .error .nonZeroSbz := by
  obtain ⟨i, -, -, hd⟩ := decode_byRow h
  rw [hd, beq_eq_false_iff_ne.2 hz, checkSbz_false]

/-- Settles O7: the masks of two rows tell them apart, and the decoder follows the rows. -/
theorem decoderAgreesWithTheOpcodeMap : Obligations.DecoderAgreesWithTheOpcodeMap := by
  refine ⟨opcodeRows_disjoint.imp OpcodeRow.not_both_match, fun w0 rest hlen => ?_⟩
  have hrow : ∀ i, decode (w0 :: rest) = .ok i →
      ∃ r ∈ opcodeRows, r.matchesWord w0 = true ∧ r.mnemonic = i.mnemonic ∧ r.words = packetLength w0 := by
    intro i h
    obtain ⟨-, _, _, hw, hz, r, hr, hm, hsel⟩ := decode_eq_ok h
    cases hw
    exact ⟨r, hr, (OpcodeRow.matchesWord_iff hr).2 ⟨hsel, hz⟩, hm, hsel.words_eq hr⟩
  refine ⟨⟨fun ⟨i, h⟩ => ?_, fun ⟨r, hr, hmatch⟩ => ?_⟩, hrow⟩
  · obtain ⟨r, hr, hmatch, -, -⟩ := hrow i h
    exact ⟨r, hr, hmatch⟩
  · exact decode_ok_of_sbz_zero hlen ((OpcodeRow.matchesWord_iff hr).1 hmatch).2

end Sys2Proof

/-! # The command port: from words to instructions

First what a step does with the word that completes a packet; then runs of whole packets. -/

namespace Sys2Proof.Machine

/-! ## What every instruction answers -/

/-- Every instruction answers a next state (R261). -/
theorem exec_next (i : Instr) (s : State) : ∃ t, exec i s = .next t := by cases i <;> exact ⟨_, rfl⟩

/-- No instruction writes the packet assembler or the inputs to come. -/
theorem exec_keeps_inputs {i : Instr} {s t : State} (ht : exec i s = .next t) : t.pa = s.pa ∧ t.cmdIn = s.cmdIn := by
  cases exec_effect ht with
  | source sa _ h =>
    cases h with
    | answers fp hfp r hr h => exact h ▸ ⟨rfl, rfl⟩
    | delivers fp hfp len m r hr hv h => exact h ▸ ⟨rfl, rfl⟩
  | everyEntry hi fp rs hrs h => exact h ▸ ⟨rfl, rfl⟩
  | reader hi rd r hr h => exact h ▸ ⟨rfl, rfl⟩
  | answer r hr h => exact h ▸ ⟨rfl, rfl⟩

/-- A command gives one response, after the earlier ones (R71). -/
theorem exec_command_responds {i : Instr} {s t : State} (hi : commandsOf i = [i]) (ht : exec i s = .next t) :
    ∃ r, t.rspOut = s.rspOut ++ [r] := by
  cases exec_effect ht with
  | source sa _ h =>
    cases h with
    | answers fp hfp r hr h => exact h ▸ ⟨r, rfl⟩
    | delivers fp hfp len m r hr hv h => exact h ▸ ⟨r, rfl⟩
  | everyEntry hevery =>
    cases i with
    | fpflush | tick =>
      cases ht
      exact ⟨_, rfl⟩
    | ticks k => exact absurd hi (commandsOf_ticks_ne k)
    | _ => cases hevery
  | reader hi rd r hr h => exact h ▸ ⟨r, rfl⟩
  | answer r hr h => exact h ▸ ⟨r, rfl⟩

/-! ## The word that completes a packet -/

section
variable {s : State} {w : Word} {ins : List PortInput} (hin : s.cmdIn = .word w :: ins)
include hin

/-- The word completes a packet that decodes: its instruction runs (R72). -/
theorem step_of_decode_ok {i : Instr} (hd : decode (s.pa ++ [w]) = .ok i) :
    step s = exec i { s with pa := [], cmdIn := ins } := by
  rw [step_cons hin, acceptInput, acceptWord, State.setCmdIn_pa, hd]
  rfl

/-- The word completes a packet with a non-zero SBZ field: it is turned away (R84). -/
theorem step_of_nonZeroSbz (hd : decode (s.pa ++ [w]) = .error .nonZeroSbz) :
    step s = .next { s with cmdIn := ins, pa := [], rspOut := s.rspOut ++ [badCommandResponse] } := by
  rw [step_cons hin, acceptInput, acceptWord, State.setCmdIn_pa, hd]
  rfl

theorem step_of_incomplete (hd : decode (s.pa ++ [w]) = .error .incomplete) :
    step s = .next { s with pa := s.pa ++ [w], cmdIn := ins } := by
  rw [step_cons hin]
  exact acceptWord_of_incomplete hd

end

/-- Settles O40. -/
theorem stepRunsTheDecodedInstruction : Obligations.StepRunsTheDecodedInstruction :=
  fun _ _ _ _ hin hd => step_of_decode_ok hin hd

/-- Settles O43, by what the word makes of the packet: nothing yet, a packet that is turned away, or a command. -/
theorem everyPacketGetsExactlyOneResponse : Obligations.EveryPacketGetsExactlyOneResponse := by
  intro s w ins hin
  cases hd : decode (s.pa ++ [w]) with
  | error e =>
    cases e with
    | incomplete => exact ⟨_, step_of_incomplete hin hd, rfl, fun _ => rfl, fun h => absurd rfl h⟩
    | nonZeroSbz => exact ⟨_, step_of_nonZeroSbz hin hd, rfl, nofun, fun _ => ⟨rfl, _, rfl⟩⟩
  | ok i =>
    obtain ⟨t, ht⟩ := exec_next i { s with pa := [], cmdIn := ins }
    obtain ⟨hpa, hcmd⟩ := exec_keeps_inputs ht
    have hrsp := exec_command_responds (decode_eq_ok hd).1 ht
    exact ⟨t, (step_of_decode_ok hin hd).trans ht, hcmd, nofun, fun _ => ⟨hpa, hrsp⟩⟩

/-! ## Packets that are turned away -/

/-- Settles O8: a packet with a non-zero SBZ bit decodes to the rejection, and one without decodes to an instruction. -/
theorem nonZeroSbzFieldIsTurnedAway : Obligations.NonZeroSbzFieldIsTurnedAway := by
  refine ⟨fun s w w0 ws ins hin hws hlen hz => ?_, fun w0 ws hlen hz => decode_ok_of_sbz_zero hlen.ge hz⟩
  refine step_of_nonZeroSbz hin ?_
  rw [hws, decode_of_sbz_nonZero hlen.ge hz]

/-- The reserved opcodes (R83). -/
def reservedInstrs : List Instr := [.reserved0, .reservedA, .reservedB, .reservedC, .reservedD, .reservedE, .reservedF]

theorem exec_reserved {i : Instr} (h : i ∈ reservedInstrs) (s : State) : exec i s = .next s.respondBadCommand := by
  simp only [reservedInstrs, List.mem_cons, List.not_mem_nil, or_false] at h
  rcases h with rfl | rfl | rfl | rfl | rfl | rfl | rfl <;> rfl

/-- A word with a reserved opcode is a packet, whatever its other bits are (R83). -/
theorem decode_reserved {w : Word} (h : w.toNat / 2 ^ 28 = 0 ∨ 10 ≤ w.toNat / 2 ^ 28) :
    ∃ i ∈ reservedInstrs, decode [w] = .ok i := by
  have hlen : packetLength w = 1 := by
    rw [packetLength_eq, if_neg (by omega), if_neg (by omega), if_neg (by omega)]
  rw [decode_of_complete hlen.le]
  rw [← opcode_toNat] at h
  have hlt := (opcode w).isLt
  obtain h | h | h | h | h | h | h : (opcode w).toNat = 0 ∨ (opcode w).toNat = 10 ∨ (opcode w).toNat = 11 ∨
    (opcode w).toNat = 12 ∨ (opcode w).toNat = 13 ∨ (opcode w).toNat = 14 ∨ (opcode w).toNat = 15 := by omega
  all_goals simp [decodeFields, h, reservedInstrs]

/-- Settles O9: a reserved opcode is a whole packet, and its meaning is the rejection. -/
theorem reservedOpcodesAnswerBadCommand : Obligations.ReservedOpcodesAnswerBadCommand := by
  refine ⟨fun i s hi => exec_reserved hi s, fun s w ins hpa hin hop => ?_⟩
  obtain ⟨i, hi, hd⟩ := decode_reserved hop
  rw [step_of_decode_ok hin (by rw [hpa]; exact hd), exec_reserved hi, ← hpa]
  rfl

/-! ## Illegal operands -/

section
variable (s : State)

theorem dispatchCommand_illegal {k : BitVec 4} (hk : legalCount k = false) (c : Config) (id : Ident) (d : Payload) :
    dispatchCommand c id k d s = s.respondBadCommand := by simp [dispatchCommand, hk]

theorem ingestCommand_illegal {k : BitVec 4} (hk : legalCount k = false) (c : Config) (id : Ident) (d : Payload) :
    ingestCommand c id k d s = s.respondBadCommand := by simp [ingestCommand, hk]

theorem loadInlineCommand_illegal {k : BitVec 4} (hk : legalCount k = false) (d : Payload) :
    loadInlineCommand k d s = s.respondBadCommand := by simp [loadInlineCommand, hk]

theorem takeCommand_illegal {n : BitVec 6} (hn : legalWidth n = false) (form : TakeForm) :
    takeCommand n form s = s.respondBadCommand := by simp [takeCommand, hn]

/-- A command with an illegal operand is turned away (R82). -/
theorem exec_illegal {i : Instr} (hi : commandsOf i = [i]) (hw : i.wellFormed = false) :
    exec i s = .next s.respondBadCommand := by
  cases i with
  | dispatch id k d => rw [exec_dispatch, dispatchCommand_illegal s hw]
  | fpingest id k d => rw [exec_fpingest, ingestCommand_illegal s hw]
  | bfloadi k d => rw [exec_bfloadi, loadInlineCommand_illegal s hw]
  | bftakeU n => rw [exec_bftakeU, takeCommand_illegal s hw]
  | bftakeS n => rw [exec_bftakeS, takeCommand_illegal s hw]
  | bfskip | pdu2 | pdu1 | fpFirst | fpCont => cases hi
  | _ => cases hw

end

theorem legalCount_eq_false {k : BitVec 4} : legalCount k = false ↔ 9 ≤ k.toNat := by
  simp [legalCount, Nat.lt_iff_add_one_le]

theorem legalWidth_eq_false {n : BitVec 6} : legalWidth n = false ↔ n.toNat = 0 ∨ 33 ≤ n.toNat := by
  rw [← Bool.not_eq_true, legalWidth_iff]
  omega

/-- Settles O10: each command checks its operand, and the decoder gives commands alone. -/
theorem illegalOperandsAnswerBadCommand : Obligations.IllegalOperandsAnswerBadCommand := by
  refine ⟨fun id k n d s => ⟨fun hk => ?_, fun hn => ?_⟩, fun s w ins i hin hd hw => ?_⟩
  · have hk' := legalCount_eq_false.2 hk
    exact ⟨exec_illegal s rfl hk', exec_illegal s rfl hk', exec_illegal s rfl hk'⟩
  · have hn' := legalWidth_eq_false.2 hn
    exact ⟨exec_illegal s rfl hn', exec_illegal s rfl hn', congrArg _ (takeCommand_illegal s hn' _)⟩
  · rw [step_of_decode_ok hin hd, exec_illegal _ (decode_eq_ok hd).1 hw]
    rfl

end Sys2Proof.Machine

namespace Sys2Proof.Machine

/-! ## Runs of whole packets -/

/-- A run whose first step answers a next state goes on from there. -/
theorem run_succ_of_next {M : Host.Core} {s t : M.State} (h : M.step s = .next t) (k : Nat) :
    M.run (k + 1) s = M.run k t := by rw [Host.Core.run, h]

theorem run_of_step {s t : State} (h : step s = .next t) (k : Nat) :
    Host.Core.run core (k + 1) s = Host.Core.run core k t := run_succ_of_next (M := core) h k

/-- The words of a packet that are left to send, one a step: the last one runs the instruction (R72). -/
theorem run_packet {i : Instr} {w0 : Word} {ws : List Word} (hp : IsPacketOf i w0 ws) {ins : List PortInput}
    (left : List Word) {sent : List Word} {s : State} (hsplit : sent ++ left = w0 :: ws) (hne : left ≠ [])
    (hpa : s.pa = sent) (hin : s.cmdIn = left.map PortInput.word ++ ins) :
    Host.Core.run core left.length s = exec i { s with pa := [], cmdIn := ins } := by
  induction left generalizing sent s with
  | nil => exact absurd rfl hne
  | cons w left ih =>
    cases left with
    | nil =>
      have hd : decode (s.pa ++ [w]) = .ok i := by rw [hpa, hsplit, hp.decode_eq]
      obtain ⟨t, ht⟩ := exec_next i { s with pa := [], cmdIn := ins }
      rw [ht]
      exact run_of_step ((step_of_decode_ok hin hd).trans ht) 0
    | cons w' left =>
      have hsplit' : (sent ++ [w]) ++ (w' :: left) = w0 :: ws := by rw [← hsplit, List.append_assoc]; rfl
      have hd : decode (s.pa ++ [w]) = .error .incomplete := by
        rw [hpa]
        exact decode_of_fewer_words hp.length hsplit' (by simp)
      rw [List.length_cons, run_of_step (step_of_incomplete hin hd)]
      exact ih hsplit' (by simp) (by rw [hpa]) rfl

section
variable (s : State) (ins : List PortInput)

/-- An instruction that stands for one command and has its meaning: the words of the command run it. -/
theorem run_encode_of_command {i j : Instr} (hi : commandsOf i = [j]) (hexec : exec i = exec j) :
    Host.Core.run core (encode i).length { s with pa := [], cmdIn := (encode i).map PortInput.word ++ ins }
      = exec i { s with pa := [], cmdIn := ins } := by
  obtain ⟨hwords, hj⟩ := everyInstructionAssemblesToCommands i
  rw [hi, List.flatMap_singleton] at hwords
  rw [hi] at hj
  obtain ⟨w0, ws, he, hp⟩ := encode_isPacketOf (hj j (List.mem_singleton_self j))
  rw [hwords, he, hexec]
  exact run_packet hp (w0 :: ws) (s := { s with pa := [], cmdIn := _ }) (List.nil_append _) (by simp) rfl rfl

/-- `k` TICK packets run `k` ticks (R93). -/
theorem run_encode_ticks (k : Nat) :
    Host.Core.run core k { s with pa := [], cmdIn := (encode (.ticks k)).map PortInput.word ++ ins }
      = .next (tickTimes Config.build k { s with pa := [], cmdIn := ins }) := by
  induction k generalizing s with
  | zero => rfl
  | succ k ih =>
    have hd : decode ([] ++ [wordPlain 0x6#4]) = .ok .tick := rfl
    exact (run_of_step (step_of_decode_ok (s := { s with pa := [], cmdIn := _ }) rfl hd) k).trans
      (ih (tickCommand Config.build { s with pa := [] }))

end

/-- Settles O44: an instruction stands for one command, whose packet runs it, or it is TICKS. -/
theorem sendingTheWordsRunsTheInstruction : Obligations.SendingTheWordsRunsTheInstruction := by
  intro i s ins hpa
  obtain ⟨fp, msg, rd, pa, cmdIn, rspOut⟩ := s
  cases hpa
  cases i with
  | ticks k =>
    rw [encode, List.length_replicate]
    exact run_encode_ticks ⟨fp, msg, rd, [], cmdIn, rspOut⟩ ins k
  | _ => exact run_encode_of_command ⟨fp, msg, rd, [], cmdIn, rspOut⟩ ins rfl rfl

end Sys2Proof.Machine

/-! # Payloads, responses, the assembler and ticks -/

namespace Sys2Proof.Machine

/-! ## The payload bytes that a command reads -/

theorem payloadBytes_length (d : Payload) : (payloadBytes d).length = 8 := rfl

section
variable {k : BitVec 4} {d d' : Payload}
  (h : ∀ i, i < k.toNat → (payloadBytes d).getD i 0#8 = (payloadBytes d').getD i 0#8)
include h

/-- Two payloads that agree below the count have the same bytes there. -/
theorem payloadBytes_take_congr : (payloadBytes d).take k.toNat = (payloadBytes d').take k.toNat := by
  refine List.ext_getElem (by simp [payloadBytes_length]) fun i hi hi' => ?_
  obtain ⟨hk, h8⟩ := lt_min_iff.1 (List.length_take ▸ hi)
  have h8' : i < (payloadBytes d').length := h8
  rw [List.getElem_take, List.getElem_take, ← List.getD_eq_getElem _ 0#8 h8, ← List.getD_eq_getElem _ 0#8 h8', h i hk]

/-- A frame of eight bytes has no byte past its count. -/
theorem payload_eq_of_eight (hk : k = 8#4) : d = d' := by
  have htake := payloadBytes_take_congr h
  subst hk
  obtain ⟨b0, b1, b2, b3, b4, b5, b6, b7⟩ := d
  obtain ⟨c0, c1, c2, c3, c4, c5, c6, c7⟩ := d'
  simpa [payloadBytes] using htake

/-- An ingest reads the payload of a frame of eight bytes alone (R202). -/
theorem ingest_congr (c : Config) (pgn : Pgn) (sa : SourceAddr) (s : State) :
    ingest c pgn sa k d s = ingest c pgn sa k d' s := by
  by_cases hk : k = 8#4
  · rw [payload_eq_of_eight h hk]
  · rw [ingest, ingest, if_pos hk, if_pos hk]

theorem ingestCommand_congr (c : Config) (id : Ident) (s : State) :
    ingestCommand c id k d s = ingestCommand c id k d' s := by
  rw [ingestCommand, ingestCommand, ingest_congr h]

theorem deliverSingle_congr (id : Ident) (s : State) : deliverSingle id k d s = deliverSingle id k d' s := by
  rw [deliverSingle, deliverSingle, payloadBytes_take_congr h]

theorem dispatchCommand_congr (c : Config) (id : Ident) (s : State) :
    dispatchCommand c id k d s = dispatchCommand c id k d' s := by
  rw [dispatchCommand, dispatchCommand, ingest_congr h, deliverSingle_congr h]

theorem loadInlineCommand_congr (s : State) : loadInlineCommand k d s = loadInlineCommand k d' s := by
  rw [loadInlineCommand, loadInlineCommand, payloadBytes_take_congr h]

end

/-- Settles O6: each command reads the bytes below its count, or all eight of a frame of eight. -/
theorem payloadBytesPastTheCountAreIgnored : Obligations.PayloadBytesPastTheCountAreIgnored := by
  intro id k d d' s h
  exact ⟨congrArg Host.Outcome.next (dispatchCommand_congr h _ id s),
    congrArg Host.Outcome.next (ingestCommand_congr h _ id s), congrArg Host.Outcome.next (loadInlineCommand_congr h s)⟩

/-! ## The wire form of a response -/

theorem statusOfCode_statusCode (st : Status) : statusOfCode (statusCode st) = some st := by cases st <;> decide

theorem classOfCode_classCode (cl : FrameClass) : classOfCode (classCode cl) = some cl := by cases cl <;> decide

/-- The codes that are never given (R260, I6). -/
theorem statusOfCode_eq_none : ∀ {code : BitVec 4}, 9 ≤ code.toNat → statusOfCode code = none := by decide

theorem word0_toNat (r : Response) : r.word0.toNat
    = (statusCode r.status).toNat * 2 ^ 28 + (classCode r.cls).toNat * 2 ^ 26 + r.pgn.toNat * 2 ^ 8 + r.sa.toNat := by
  show (((statusCode r.status ++ classCode r.cls : BitVec (4 + 2)) ++ r.pgn : BitVec (4 + 2 + 18)) ++ r.sa :
    BitVec (4 + 2 + 18 + 8)).toNat = _
  simp only [toNat_append_add]
  omega

section
variable (r : Response)

theorem word0_status : r.word0.extractLsb' 28 4 = statusCode r.status := by
  apply BitVec.eq_of_toNat_eq
  rw [extract_toNat, word0_toNat]
  omega

theorem word0_class : r.word0.extractLsb' 26 2 = classCode r.cls := by
  apply BitVec.eq_of_toNat_eq
  rw [extract_toNat, word0_toNat]
  omega

theorem word0_pgn : r.word0.extractLsb' 8 18 = r.pgn := by
  apply BitVec.eq_of_toNat_eq
  rw [extract_toNat, word0_toNat]
  omega

theorem word0_sa : r.word0.extractLsb' 0 8 = r.sa := by
  apply BitVec.eq_of_toNat_eq
  rw [extract_toNat, word0_toNat]
  omega

/-- A host reads back the response that the block gave (R90). -/
theorem responseOfWords_words : responseOfWords r.word0 r.value = some r := by
  simp only [responseOfWords, word0_status, word0_class, word0_pgn, word0_sa, statusOfCode_statusCode,
    classOfCode_classCode]

end

theorem responseOfWords_eq_none {w0 : Word} (w1 : Word) (h : 9 ≤ w0.toNat / 2 ^ 28) : responseOfWords w0 w1 = none := by
  have hcode : 9 ≤ (w0.extractLsb' 28 4).toNat := by
    rw [extract_toNat]
    omega
  simp only [responseOfWords, statusOfCode_eq_none hcode]

/-- Settles O11: the first word is the sum of its fields, each of which is read back. -/
theorem responseWordsCarryTheResponse : Obligations.ResponseWordsCarryTheResponse :=
  ⟨⟨rfl, rfl⟩, fun r => ⟨word0_toNat r, rfl, responseOfWords_words r⟩, fun _ w1 h => responseOfWords_eq_none w1 h⟩

/-! ## Ticks -/

section
variable {c : Config} {s : State} {sa : SourceAddr}

theorem State.Inv.tickCommand (hs : State.Inv c s) : State.Inv c (tickCommand c s) := hs.tickTimes 1

/-- An entry in the table has not timed out (R25). -/
theorem State.Inv.fresh_of_find (hs : State.Inv c s) {e : Entry} (he : Table.find s.fp sa = some e) :
    e.age.toNat < c.fpTimeoutTicks := (hs.entries _ (Table.mem_of_find he)).fresh

/-- A tick gives no source an entry (R243). -/
theorem find_tick_none (hs : State.Inv c s) (h : Table.find s.fp sa = none) :
    Table.find (tickCommand c s).fp sa = none := by
  show Table.find (Table.tick c s.fp) sa = none
  rw [Table.find_tick c hs.table_wf, h]
  rfl

/-- One tick of an entry that the invariant bounds: its age does not saturate (R243). -/
theorem find_tick_some (hs : State.Inv c s) {e : Entry} (he : Table.find s.fp sa = some e) :
    (ageEntry e).age.toNat = e.age.toNat + 1 ∧ Table.find (tickCommand c s).fp sa
      = if c.fpTimeoutTicks ≤ e.age.toNat + 1 then none else some (ageEntry e) := by
  have hfresh : e.age.toNat < c.timeoutLessOne.val + 1 := hs.fresh_of_find he
  have hage : (ageEntry e).age.toNat = e.age.toNat + 1 := by
    have := c.timeoutLessOne.isLt
    rw [ageEntry_age]
    omega
  refine ⟨hage, ?_⟩
  show Table.find (Table.tick c s.fp) sa = _
  rw [Table.find_tick c hs.table_wf, he, ← hage]
  by_cases h : c.fpTimeoutTicks ≤ (ageEntry e).age.toNat <;> simp [isStale, h]

theorem find_tickTimes_none (hs : State.Inv c s) (h : Table.find s.fp sa = none) (k : Nat) :
    Table.find (tickTimes c k s).fp sa = none := by
  induction k generalizing s with
  | zero => exact h
  | succ k ih => exact ih hs.tickCommand (find_tick_none hs h)

/-- After `k` ticks an entry has timed out, or is `k` ticks older (R93, R243). -/
theorem find_tickTimes_some (hs : State.Inv c s) {e : Entry} (he : Table.find s.fp sa = some e) (k : Nat) :
    Table.find (tickTimes c k s).fp sa = if c.fpTimeoutTicks ≤ e.age.toNat + k then none
      else some { e with age := BitVec.ofNat 16 (e.age.toNat + k) } := by
  induction k generalizing s e with
  | zero =>
    rw [Nat.add_zero, if_neg (not_le.2 (hs.fresh_of_find he)), BitVec.ofNat_toNat, BitVec.setWidth_eq]
    exact he
  | succ k ih =>
    obtain ⟨hage, hfind⟩ := find_tick_some hs he
    rw [tickTimes]
    by_cases h1 : c.fpTimeoutTicks ≤ e.age.toNat + 1
    · rw [if_pos h1] at hfind
      rw [find_tickTimes_none hs.tickCommand hfind, if_pos (by omega)]
    · rw [if_neg h1] at hfind
      rw [ih hs.tickCommand hfind, hage, Nat.add_assoc, Nat.add_comm 1 k]
      rfl

end

theorem tickTimes_rspOut_length (c : Config) (k : Nat) (s : State) :
    (tickTimes c k s).rspOut.length = s.rspOut.length + k := by
  induction k generalizing s with
  | zero => rfl
  | succ k ih => rw [tickTimes, ih, tickCommand, State.respond_rspOut, State.setFp_rspOut, List.length_append,
      List.length_singleton, Nat.add_assoc, Nat.add_comm 1 k]

/-- Settles O38, by what `k` ticks do to one entry. -/
theorem ticksTimeOutIdleEntries : Obligations.TicksTimeOutIdleEntries := by
  refine ⟨fun k s => exec_ticks s k, fun c k s hs => ⟨fun sa h => find_tickTimes_none hs h k, fun sa e he => ?_, ?_⟩⟩
  · have hfind := find_tickTimes_some hs he k
    refine ⟨fun h => by rw [hfind, if_pos h], fun h => ⟨_, hfind.trans (if_neg (not_le.2 h)), ?_, rfl⟩⟩
    have hbound : e.age.toNat + k < c.timeoutLessOne.val + 1 := h
    rw [BitVec.toNat_ofNat]
    omega
  · obtain ⟨fp, rs, -, h⟩ := tickTimes_writes_table s c k
    refine ⟨?_, ?_, tickTimes_rspOut_length c k s⟩
    · rw [h]
      exact ⟨rfl, rfl, rfl⟩
    · rw [h]

/-! ## The assembler -/

theorem assembleIf_eq_some {b : Bool} {i j : Instr} : assembleIf b i = some j ↔ b = true ∧ i = j := by
  cases b <;> simp [assembleIf]

theorem assembleIf_true {b : Bool} (hb : b = true) (i : Instr) : assembleIf b i = some i := if_pos hb

theorem assembleIf_false {b : Bool} (hb : ¬ b = true) (i : Instr) : assembleIf b i = none := if_neg hb

/-- A count in range is held as it stands, and is legal (R82). -/
theorem count_toNat {k : Nat} (h : k ≤ 8) : (BitVec.ofNat 4 k).toNat = k := by
  rw [BitVec.toNat_ofNat]
  omega

theorem legalCount_ofNat {k : Nat} (h : k ≤ 8) : legalCount (BitVec.ofNat 4 k) = true := by
  rw [legalCount, count_toNat h, decide_eq_true h]

/-- A width in range is held as it stands, and is legal (R82). -/
theorem width_toNat {n : Nat} (h : n ≤ 32) : (BitVec.ofNat 6 n).toNat = n := by
  rw [BitVec.toNat_ofNat]
  omega

theorem legalWidth_ofNat {n : Nat} (h1 : 1 ≤ n) (h : n ≤ 32) : legalWidth (BitVec.ofNat 6 n) = true := by
  rw [legalWidth_iff, width_toNat h]
  exact ⟨h1, h⟩

/-- The range check of a frame's line, and of an inline load's. -/
theorem frameInRange_iff {id k : Nat} {bytes : List Byte} :
    (decide (id < 2 ^ 29) && decide (k ≤ 8) && bytes.length == k) = true ↔ id < 2 ^ 29 ∧ k ≤ 8 ∧ bytes.length = k := by
  simp [and_assoc]

theorem loadInRange_iff {k : Nat} {bytes : List Byte} :
    (decide (k ≤ 8) && bytes.length == k) = true ↔ k ≤ 8 ∧ bytes.length = k := by simp

theorem widthInRange_iff {n : Nat} : (decide (1 ≤ n) && decide (n ≤ 32)) = true ↔ 1 ≤ n ∧ n ≤ 32 := by simp

/-- What the assembler gives has legal operands (R92). -/
theorem assembleLine_wellFormed {l : AsmLine} {i : Instr} (h : assembleLine l = some i) : i.wellFormed = true := by
  cases l with
  | dispatch id k bytes | fpingest id k bytes =>
    obtain ⟨hb, rfl⟩ := assembleIf_eq_some.1 h
    exact legalCount_ofNat (frameInRange_iff.1 hb).2.1
  | bfloadi k bytes =>
    obtain ⟨hb, rfl⟩ := assembleIf_eq_some.1 h
    exact legalCount_ofNat (loadInRange_iff.1 hb).1
  | bftakeU n | bftakeS n | bfskip n =>
    obtain ⟨hb, rfl⟩ := assembleIf_eq_some.1 h
    obtain ⟨h1, h32⟩ := widthInRange_iff.1 hb
    exact legalWidth_ofNat h1 h32
  | iddec | fpevict =>
    obtain ⟨-, rfl⟩ := assembleIf_eq_some.1 h
    rfl
  | fpflush | tick | bfloadm | ticks =>
    cases h
    rfl

/-- Settles O12, line form by line form. -/
theorem assemblerRefusesOutOfRangeValues : Obligations.AssemblerRefusesOutOfRangeValues := by
  refine ⟨fun l i h => ⟨assembleLine_wellFormed h, by rw [assemble, h]; rfl⟩, fun l h => by rw [assemble, h]; rfl,
    fun id k bytes => ⟨fun h => ?_, fun hid hk hlen => ?_⟩, fun k bytes => ⟨fun h => ?_, fun hk hlen => ?_⟩,
    fun n => ⟨fun h => ?_, fun h1 h32 => ?_⟩, fun id => ⟨fun h => ?_, fun h => ?_⟩,
    fun sa => ⟨fun h => ?_, fun h => ?_⟩, rfl, rfl, rfl, fun _ => rfl⟩
  · have hb := mt frameInRange_iff.1 h
    exact ⟨assembleIf_false hb _, assembleIf_false hb _⟩
  · have hb := frameInRange_iff.2 ⟨hid, hk, hlen⟩
    exact ⟨_, _, _, (BitVec.toNat_ofNat ..).trans (Nat.mod_eq_of_lt hid), count_toNat hk,
      payloadBytes_payloadOf (hlen.trans_le hk), assembleIf_true hb _, assembleIf_true hb _⟩
  · exact assembleIf_false (mt loadInRange_iff.1 h) _
  · exact ⟨_, _, count_toNat hk, payloadBytes_payloadOf (hlen.trans_le hk),
      assembleIf_true (loadInRange_iff.2 ⟨hk, hlen⟩) _⟩
  · have hb := mt widthInRange_iff.1 h
    exact ⟨assembleIf_false hb _, assembleIf_false hb _, assembleIf_false hb _⟩
  · have hb := widthInRange_iff.2 ⟨h1, h32⟩
    exact ⟨_, width_toNat h32, assembleIf_true hb _, assembleIf_true hb _, assembleIf_true hb _⟩
  · exact assembleIf_false (by simpa using h) _
  · exact ⟨_, (BitVec.toNat_ofNat ..).trans (Nat.mod_eq_of_lt h), assembleIf_true (decide_eq_true h) _⟩
  · exact assembleIf_false (by simpa using h) _
  · exact ⟨_, (BitVec.toNat_ofNat ..).trans (Nat.mod_eq_of_lt h), assembleIf_true (decide_eq_true h) _⟩

/-- Settles O1: the examples are fixed words. -/
theorem specEncodingExamplesReadBothWays : Obligations.SpecEncodingExamplesReadBothWays := by
  unfold Obligations.SpecEncodingExamplesReadBothWays
  decide

end Sys2Proof.Machine

/-! # The identifier: its fields, its PGN and its decode

The fields and the PGN as numbers, once for each addressing format (R111 to R113); then the statements. -/

namespace Sys2Proof.Machine

/-! ## The fields as numbers -/

theorem dataPage_toNat (id : Ident) : (dataPage id).toNat = id.toNat / 2 ^ 24 % 4 := extract_toNat id 24 2

theorem pduFormat_toNat (id : Ident) : (pduFormat id).toNat = id.toNat / 2 ^ 16 % 256 := extract_toNat id 16 8

theorem pduSpecific_toNat (id : Ident) : (pduSpecific id).toNat = id.toNat / 2 ^ 8 % 256 := extract_toNat id 8 8

theorem sourceAddress_toNat (id : Ident) : (sourceAddress id).toNat = id.toNat % 256 := by
  rw [sourceAddress, extract_toNat]
  omega

/-- A field put above the bits of another word adds to it: nothing is shifted out and no bit is set twice. -/
theorem shiftLeft_or_toNat {w k : Nat} {x y : BitVec w} (hx : x.toNat * 2 ^ k < 2 ^ w) (hy : y.toNat < 2 ^ k) :
    (x <<< k ||| y).toNat = x.toNat * 2 ^ k + y.toNat := by
  rw [BitVec.toNat_or, BitVec.toNat_shiftLeft, Nat.shiftLeft_eq, Nat.mod_eq_of_lt hx, ← Nat.shiftLeft_eq,
    Nat.shiftLeft_add_eq_or_of_lt hy]

/-- The PGN's number: the data page and the PDU format above a low byte `y`. -/
theorem pgnFields_toNat {dp : BitVec 2} {pf : BitVec 8} {y : Pgn} (hy : y.toNat < 2 ^ 8) :
    (dp.setWidth 18 <<< 16 ||| (pf.setWidth 18 <<< 8 ||| y)).toNat = dp.toNat * 2 ^ 16 + pf.toNat * 2 ^ 8 + y.toNat := by
  have hdp : (dp.setWidth 18).toNat = dp.toNat := BitVec.toNat_setWidth_of_le (by decide)
  have hpf : (pf.setWidth 18).toNat = pf.toNat := BitVec.toNat_setWidth_of_le (by decide)
  have hlow : (pf.setWidth 18 <<< 8 ||| y).toNat = pf.toNat * 2 ^ 8 + y.toNat := by
    rw [shiftLeft_or_toNat (by omega) hy, hpf]
  rw [shiftLeft_or_toNat (by omega) (by omega), hdp, hlow, Nat.add_assoc]

/-! ## PDU1: the PDU format is below 240 -/

section
variable {id : Ident} (h : id.toNat / 2 ^ 16 % 256 < 240)
include h

theorem pduKind_eq_pdu1 : pduKind id = .pdu1 := if_pos (by rwa [pduFormat_toNat])

theorem pgnOf_toNat_of_pdu1 :
    (pgnOf id).toNat = id.toNat / 2 ^ 24 % 4 * 2 ^ 16 + id.toNat / 2 ^ 16 % 256 * 2 ^ 8 := by
  have hpgn := pgnFields_toNat (dp := dataPage id) (pf := pduFormat id) (y := 0#18) (by decide)
  rw [BitVec.or_zero, BitVec.toNat_zero, Nat.add_zero, dataPage_toNat, pduFormat_toNat] at hpgn
  simpa only [pgnOf, pduKind_eq_pdu1 h] using hpgn

theorem identValue_toNat_of_pdu1 : (identValue id).toNat = id.toNat := by
  rw [identValue, pduKind_eq_pdu1 h]
  exact BitVec.toNat_setWidth_of_le (by decide)

end

/-! ## PDU2: the PDU format is 240 or more -/

section
variable {id : Ident} (h : 240 ≤ id.toNat / 2 ^ 16 % 256)
include h

theorem pduKind_eq_pdu2 : pduKind id = .pdu2 := if_neg (by rwa [pduFormat_toNat, not_lt])

theorem pgnOf_toNat_of_pdu2 : (pgnOf id).toNat
    = id.toNat / 2 ^ 24 % 4 * 2 ^ 16 + id.toNat / 2 ^ 16 % 256 * 2 ^ 8 + id.toNat / 2 ^ 8 % 256 := by
  have hps : ((pduSpecific id).setWidth 18).toNat = (pduSpecific id).toNat := BitVec.toNat_setWidth_of_le (by decide)
  have hpgn := pgnFields_toNat (dp := dataPage id) (pf := pduFormat id) (hps.trans_lt (pduSpecific id).isLt)
  rw [← BitVec.or_assoc, hps, dataPage_toNat, pduFormat_toNat, pduSpecific_toNat] at hpgn
  simpa only [pgnOf, pduKind_eq_pdu2 h] using hpgn

theorem identValue_toNat_of_pdu2 : (identValue id).toNat = id.toNat + 2 ^ 31 := by
  have hid : (id.setWidth 32).toNat = id.toNat := BitVec.toNat_setWidth_of_le (by decide)
  rw [identValue, pduKind_eq_pdu2 h]
  exact (shiftLeft_or_toNat (by decide) (by omega)).trans (by rw [hid, BitVec.toNat_ofNat]; omega)

end

/-- Settles O13: the PGN's number under each format; bits 15:12 are the high half of the PDU format, all ones from 240. -/
theorem pgnFollowsTheAddressingFormat : Obligations.PgnFollowsTheAddressingFormat := by
  intro id dp pf ps
  refine ⟨fun h => ?_, fun h => ?_⟩
  · have hpgn : (pgnOf id).toNat = dp * 2 ^ 16 + pf * 2 ^ 8 := pgnOf_toNat_of_pdu1 h
    exact ⟨hpgn, by omega, by omega⟩
  · have hpgn : (pgnOf id).toNat = dp * 2 ^ 16 + pf * 2 ^ 8 + ps := pgnOf_toNat_of_pdu2 h
    exact ⟨hpgn, by omega⟩

/-- The response's value carries the format in bit 31 (R115). -/
theorem identValue_toNat (id : Ident) :
    (identValue id).toNat = id.toNat + (if id.toNat / 2 ^ 16 % 256 < 240 then 0 else 2 ^ 31) := by
  split_ifs with h
  · exact identValue_toNat_of_pdu1 h
  · exact identValue_toNat_of_pdu2 (not_lt.1 h)

/-- Settles O14: IDDEC and both rows of the identifier space give the one response of `identCommand`. -/
theorem identifierDecodeReportsEveryField : Obligations.IdentifierDecodeReportsEveryField := fun id s =>
  ⟨⟨.ok, classOf Config.build id, pgnOf id, sourceAddress id, identValue id⟩, exec_iddec s id, fun _ => exec_pdu2 s id,
    fun _ => exec_pdu1 s id, rfl, rfl, rfl, sourceAddress_toNat id, identValue_toNat id⟩

end Sys2Proof.Machine

/-! # The bit-field reader

First what a take does, in the cases of R137, and what a run of instructions does to the reader; then the statements. -/

namespace Sys2Proof.Machine

/-! ## One take -/

section
variable {n : BitVec 6} {s : State}

/-- A legal take that fails (R138). -/
theorem takeCommand_fails (hl : legalWidth n = true) (hf : takeFails s.rd n.toNat = true) (form : TakeForm) :
    takeCommand n form s = (s.setRd (setAbort s.rd)).respond ⟨.parseError, .unknown, 0#18, 0#8, 0#32⟩ := by
  simp [takeCommand, hl, takeField_fails hf]

/-- A legal take that succeeds (R137). -/
theorem takeCommand_succeeds (hl : legalWidth n = true) (hf : takeFails s.rd n.toNat = false) (form : TakeForm) :
    takeCommand n form s = (s.setRd { s.rd with cur := BitVec.ofNat 11 (s.rd.cur.toNat + n.toNat) }).respond
      ⟨.ok, .unknown, 0#18, 0#8, widenTaken form (takenValue s.rd n.toNat) n.toNat⟩ := by
  simp [takeCommand, hl, takeField_succeeds hf]

/-- With the flag set a legal take changes nothing: it answers PARSE_ERROR (R138). -/
theorem takeCommand_of_abort (hl : legalWidth n = true) (h : s.rd.abort = true) (form : TakeForm) :
    takeCommand n form s = s.respond ⟨.parseError, .unknown, 0#18, 0#8, 0#32⟩ := by
  rw [takeCommand_fails hl (by simp [takeFails, h]), setAbort_of_abort h]
  rfl

/-- With the flag set no take, legal or not, changes the reader. -/
theorem takeCommand_rd_of_abort (h : s.rd.abort = true) (form : TakeForm) : (takeCommand n form s).rd = s.rd := by
  cases hl : legalWidth n with
  | false => rw [takeCommand_illegal s hl, State.respondBadCommand_rd]
  | true => rw [takeCommand_of_abort hl h, State.respond_rd]

/-- What a take makes of the reader, and what it answers, is read from the reader alone. -/
theorem takeCommand_of_reader (n : BitVec 6) (form : TakeForm) (rd : Reader) : ∃ (rd' : Reader) (r : Response),
    ∀ s : State, s.rd = rd → takeCommand n form s = (s.setRd rd').respond r := by
  cases hl : legalWidth n with
  | false => exact ⟨rd, badCommandResponse, fun s hs => hs ▸ takeCommand_illegal s hl form⟩
  | true =>
    cases hf : takeFails rd n.toNat with
    | false =>
      refine ⟨{ rd with cur := BitVec.ofNat 11 (rd.cur.toNat + n.toNat) },
        ⟨.ok, .unknown, 0#18, 0#8, widenTaken form (takenValue rd n.toNat) n.toNat⟩, ?_⟩
      rintro s rfl
      exact takeCommand_succeeds hl hf form
    | true =>
      refine ⟨setAbort rd, ⟨.parseError, .unknown, 0#18, 0#8, 0#32⟩, ?_⟩
      rintro s rfl
      exact takeCommand_fails hl hf form

end

/-- A zero-extended value keeps its number. -/
theorem widenTaken_unsigned_toNat {v n : Nat} (hv : v < 2 ^ n) (hn : n ≤ 32) :
    (widenTaken .unsigned v n).toNat = v := by
  rw [widenTaken, BitVec.toNat_ofNat, Nat.mod_eq_of_lt (hv.trans_le (Nat.pow_le_pow_right (by decide) hn))]

/-- Every take is BFTAKE in one of its forms, legal when its width is (R93, R136). -/
theorem exec_take : ∀ {i : Instr}, isTake i = true → ∃ (n : BitVec 6) (form : TakeForm),
    i.wellFormed = legalWidth n ∧ ∀ s, exec i s = .next (takeCommand n form s)
  | .bftakeU n, _ | .bfskip n, _ => ⟨n, .unsigned, rfl, fun _ => rfl⟩
  | .bftakeS n, _ => ⟨n, .signed, rfl, fun _ => rfl⟩

/-! ## The statements about one take -/

/-- Settles O15, from the bits of the taken value before it is widened. -/
theorem unsignedTakeReadsTheNextBits : Obligations.UnsignedTakeReadsTheNextBits := by
  intro n s h1 hn habort hbits
  have hexec := takeCommand_succeeds (legalWidth_iff.2 ⟨h1, hn⟩) ((takeFails_eq_false h1).2 ⟨habort, hbits⟩) .unsigned
  have hlt := takenValue_lt s.rd n.toNat
  have hbit (i : Nat) := widenTaken_unsigned_getLsbD (i := i) hlt hn
  refine ⟨_, _, congrArg Host.Outcome.next hexec, congrArg Host.Outcome.next hexec, cursor_after_take hbits,
    ?_, fun h8 i hi => ?_, fun h8 j b hj hb => ?_⟩
  · rwa [widenTaken_unsigned_toNat hlt hn]
  · exact (hbit _).trans (takenValue_bit h8 hi)
  · exact (hbit _).trans (takenValue_byte_bit h8 hj hb)

/-- Settles O16: both forms widen the same reordered value. -/
theorem signedTakeExtendsTheReorderedValue : Obligations.SignedTakeExtendsTheReorderedValue := by
  intro n s h1 hn habort hbits
  have hexec := takeCommand_succeeds (legalWidth_iff.2 ⟨h1, hn⟩) ((takeFails_eq_false h1).2 ⟨habort, hbits⟩)
  refine ⟨_, _, _, congrArg Host.Outcome.next (hexec .unsigned),
    congrArg Host.Outcome.next (hexec .signed), cursor_after_take hbits, fun i hi => ?_⟩
  have hlt := takenValue_lt s.rd n.toNat
  rw [widenTaken_signed_getLsbD h1 hn hi, widenTaken_unsigned_getLsbD hlt hn, widenTaken_unsigned_getLsbD hlt hn]

/-- Settles O17: the three takes fail alike. -/
theorem failedTakeSetsAbortAndKeepsTheCursor : Obligations.FailedTakeSetsAbortAndKeepsTheCursor := by
  intro n s h1 hn hfail
  have hexec := takeCommand_fails (legalWidth_iff.2 ⟨h1, hn⟩) ((takeFails_eq_true h1).2 hfail)
  simp only [List.forall_mem_cons]
  exact ⟨congrArg Host.Outcome.next (hexec .unsigned), congrArg Host.Outcome.next (hexec .signed),
    congrArg Host.Outcome.next (hexec .unsigned), List.forall_mem_nil _⟩

/-! ## The flag over a run -/

theorem execAll_cons {i : Instr} {s t : State} (h : exec i s = .next t) (is : List Instr) :
    execAll (i :: is) s = execAll is t := by rw [execAll, h]

/-- With the flag set only a load changes the reader (R138). -/
theorem exec_keeps_reader_of_abort {i : Instr} {s t : State} (ht : exec i s = .next t) (h : s.rd.abort = true)
    (hl : isLoad i = false) : t.rd = s.rd := by
  cases hi : isTake i with
  | false => exact exec_keeps_reader ht hi hl
  | true =>
    obtain ⟨n, form, -, hexec⟩ := exec_take hi
    cases (hexec s).symm.trans ht
    exact takeCommand_rd_of_abort h form

/-- With the flag set a run without a load keeps the reader, the flag with it (R138). -/
theorem execAll_keeps_reader_of_abort {is : List Instr} {s : State} (h : s.rd.abort = true)
    (hl : ∀ i ∈ is, isLoad i = false) : ∃ t, execAll is s = .next t ∧ t.rd = s.rd := by
  induction is generalizing s with
  | nil => exact ⟨s, rfl, rfl⟩
  | cons i is ih =>
    obtain ⟨hi, his⟩ := List.forall_mem_cons.1 hl
    obtain ⟨u, hu⟩ := exec_next i s
    have hrd : u.rd = s.rd := exec_keeps_reader_of_abort hu h hi
    obtain ⟨t, ht, htrd⟩ := ih (hrd ▸ h) his
    exact ⟨t, (execAll_cons hu is).trans ht, htrd.trans hrd⟩

/-- Settles O18: the run keeps the reader, so the flag is still set at the take. -/
theorem abortIsStickyUntilALoad : Obligations.AbortIsStickyUntilALoad := by
  intro is s h hl
  obtain ⟨t, ht, hrd⟩ := execAll_keeps_reader_of_abort h hl
  refine ⟨t, ht, hrd, fun i hi hw => ?_⟩
  obtain ⟨n, form, hn, hexec⟩ := exec_take hi
  rw [hexec, takeCommand_of_abort (hn ▸ hw) (hrd ▸ h)]
  rfl

/-! ## The loads -/

/-- A length in bits fits the response's value. -/
theorem bitLength_toNat {len : Nat} (h : len < 256) : (BitVec.ofNat 32 (8 * len)).toNat = 8 * len := by
  rw [BitVec.toNat_ofNat]
  omega

/-- Settles O19: what `loadMessageCommand` does, and its value as a number. -/
theorem loadMessageCopiesTheMessage : Obligations.LoadMessageCopiesTheMessage := fun s =>
  ⟨_, exec_bfloadm s, bitLength_toNat s.msg.len.isLt⟩

/-- BFLOADI at a legal LEN (R142). -/
theorem loadInlineCommand_legal (s : State) {k : BitVec 4} (hk : legalCount k = true) (d : Payload) :
    loadInlineCommand k d s
      = (s.setRd (loadedReader (Memory.ofBytes ((payloadBytes d).take k.toNat)) (k.setWidth 8))).respond
          ⟨.ok, .unknown, 0#18, 0#8, BitVec.ofNat 32 (8 * k.toNat)⟩ := if_pos hk

/-- A load that is not turned away makes the reader from the message and its own operands, and from nothing else of the
state (R141, R142). -/
theorem exec_load_of_message : ∀ {i : Instr}, isLoad i = true → i.wellFormed = true → ∀ m : Message,
    ∃ (rd : Reader) (r : Response), ∀ s : State, s.msg = m → exec i s = .next ((s.setRd rd).respond r)
  | .bfloadm, _, _, m =>
    ⟨loadedReader m.bytes m.len, ⟨.ok, .unknown, m.pgn, m.sa, BitVec.ofNat 32 (8 * m.len.toNat)⟩, fun _ hs => hs ▸ rfl⟩
  | .bfloadi _ d, _, hk, _ => ⟨_, _, fun s _ => congrArg Host.Outcome.next (loadInlineCommand_legal s hk d)⟩

/-- Settles O20, from the laws of a store made of bytes. -/
theorem loadInlineHoldsTheInlineBytes : Obligations.LoadInlineHoldsTheInlineBytes := by
  intro k d s hk
  have hlegal : legalCount k = true := by simpa [legalCount] using hk
  refine ⟨_, _, _, congrArg Host.Outcome.next (loadInlineCommand_legal s hlegal d),
    (StoreInv.payload hlegal d).wf, fun i => ?_,
    BitVec.toNat_setWidth_of_le (by decide), bitLength_toNat (by omega)⟩
  rw [Memory.read_ofBytes]
  by_cases hi : i < k.toNat <;> simp [hi, List.getD]

/-! ## A load and the takes after it -/

/-- What a run of takes makes of the reader, and what it answers, is read from the reader alone: one response for each
take. -/
theorem execAll_takes_of_reader {takes : List Instr} (h : ∀ i ∈ takes, isTake i = true) (rd : Reader) :
    ∃ (rd' : Reader) (out : List Response), out.length = takes.length ∧ ∀ s : State, s.rd = rd →
      execAll takes s = .next { s with rd := rd', rspOut := s.rspOut ++ out } := by
  induction takes generalizing rd with
  | nil =>
    refine ⟨rd, [], rfl, ?_⟩
    rintro s rfl
    simp [execAll]
  | cons i takes ih =>
    obtain ⟨hi, hrest⟩ := List.forall_mem_cons.1 h
    obtain ⟨n, form, -, hexec⟩ := exec_take hi
    obtain ⟨mid, r, hfirst⟩ := takeCommand_of_reader n form rd
    obtain ⟨rd', out, hlen, hrun⟩ := ih hrest mid
    refine ⟨rd', r :: out, congrArg _ hlen, fun s hs => ?_⟩
    rw [execAll_cons ((hexec s).trans (congrArg Host.Outcome.next (hfirst s hs))), hrun _ rfl]
    simp [State.respond, State.setRd]

/-- Settles O21: the load makes the reader from the message alone, and the takes read that reader alone. -/
theorem decodingTheSameBytesGivesTheSameResults : Obligations.DecodingTheSameBytesGivesTheSameResults := by
  intro load takes s s' t t' hload hw htakes hmsg ht ht'
  obtain ⟨mid, r, hexec⟩ := exec_load_of_message hload hw s.msg
  obtain ⟨rd, out, hlen, hrun⟩ := execAll_takes_of_reader htakes mid
  rw [execAll_cons (hexec s rfl), hrun _ rfl] at ht
  rw [execAll_cons (hexec s' hmsg.symm), hrun _ rfl] at ht'
  cases ht
  cases ht'
  exact ⟨rfl, r :: out, by simp, by simp, congrArg _ hlen⟩

end Sys2Proof.Machine

/-! # Dispatch

First what a delivery leaves in the message buffer, and what DISPATCH does for each class at a legal count; then the
statement. -/

namespace Sys2Proof.Machine

/-! ## The message after a delivery -/

/-- The bytes that a frame or an inline load carries: the payload's below the count, and 0x00 from it up (R164). -/
theorem read_payload (d : Payload) (k i : Nat) :
    Memory.read (Memory.ofBytes ((payloadBytes d).take k)) i = if i < k then (payloadBytes d).getD i 0#8 else 0#8 := by
  rw [Memory.read_ofBytes]
  by_cases hi : i < k <;> simp [hi, List.getD]

/-- A delivery makes the message of its operands (R164). -/
theorem messageIs_deliver (s : State) (pgn : Pgn) (sa : SourceAddr) (len : BitVec 8) (m : Memory) :
    MessageIs (s.deliver pgn sa len m).msg pgn sa len.toNat (Memory.read m) :=
  ⟨rfl, rfl, rfl, Memory.read_truncate m len.toNat⟩

/-- The bytes of a message matter below its length alone. -/
theorem MessageIs.congr {m : Message} {pgn : Pgn} {sa : SourceAddr} {len : Nat} {f g : Nat → Byte}
    (h : MessageIs m pgn sa len f) (hfg : ∀ i, i < len → f i = g i) : MessageIs m pgn sa len g := by
  obtain ⟨hpgn, hsa, hlen, hbytes⟩ := h
  exact ⟨hpgn, hsa, hlen, fun i => (hbytes i).trans (ite_congr rfl (hfg i) fun _ => rfl)⟩

/-- A single frame delivers its DLC bytes as they stand (R165). -/
theorem messageIs_deliverSingle (id : Ident) (k : BitVec 4) (d : Payload) (s : State) :
    MessageIs (deliverSingle id k d s).msg (pgnOf id) (sourceAddress id) k.toNat
      (fun i => (payloadBytes d).getD i 0#8) := by
  have hlen : (k.setWidth 8).toNat = k.toNat := BitVec.toNat_setWidth_of_le (by decide)
  have hmsg := messageIs_deliver s (pgnOf id) (sourceAddress id) (k.setWidth 8)
    (Memory.ofBytes ((payloadBytes d).take k.toNat))
  rw [hlen] at hmsg
  exact hmsg.congr fun i hi => (read_payload d k.toNat i).trans (if_pos hi)

/-! ## DISPATCH by the class of the PGN -/

section
variable {c : Config} {id : Ident} {k : BitVec 4} (d : Payload) (s : State) (hk : legalCount k = true)
include hk

theorem dispatchCommand_of_unknown (hc : classOf c id = .unknown) :
    dispatchCommand c id k d s = s.respond ⟨.unknown, .unknown, pgnOf id, sourceAddress id, 0#32⟩ := by
  simp [dispatchCommand, hk, hc]

theorem dispatchCommand_of_single (hc : classOf c id = .single) :
    dispatchCommand c id k d s = deliverSingle id k d s := by
  simp [dispatchCommand, hk, hc]

/-- A fast-packet frame takes the way of FPINGEST (R166). -/
theorem dispatchCommand_of_fastPacket (hc : classOf c id = .fastPacket) :
    dispatchCommand c id k d s = ingestCommand c id k d s := by
  simp [dispatchCommand, ingestCommand, hk, hc]

end

/-- Settles O26, class by class. -/
theorem dispatchRoutesByFrameClass : Obligations.DispatchRoutesByFrameClass := by
  refine ⟨fun id k d s _ => exec_dispatch s id k d, fun c id k d s hk => ?_⟩
  have hlegal : legalCount k = true := decide_eq_true hk
  refine ⟨fun hunknown => ?_, fun hsingle => ?_, fun hfast => ?_⟩
  · exact dispatchCommand_of_unknown d s hlegal hunknown
  · exact ⟨_, k.setWidth 32, dispatchCommand_of_single d s hlegal hsingle, BitVec.toNat_setWidth_of_le (by decide),
      messageIs_deliverSingle id k d s⟩
  · exact dispatchCommand_of_fastPacket d s hlegal hfast

end Sys2Proof.Machine

/-! # Field programs and what their values mean

First a layout over a reader that it fits: the values of its takes, as bytes of the message; then what the machine answers to
a field program; then what each field's meaning makes of its value. -/

namespace Sys2Proof.Machine

/-! ## The record of a layout -/

/-- The values that the fields of a layout take from a reader, one take after another (R180). -/
def layoutValues : List Field → Reader → List Word
  | [], _ => []
  | f :: fs, rd =>
    widenTaken f.takeForm (takenValue rd f.width.toNat) f.width.toNat ::
      layoutValues fs { rd with cur := BitVec.ofNat 11 (rd.cur.toNat + f.width.toNat) }

theorem layoutValues_length (fields : List Field) (rd : Reader) : (layoutValues fields rd).length = fields.length := by
  induction fields generalizing rd with
  | nil => rfl
  | cons f fs ih => exact congrArg (· + 1) (ih _)

theorem layoutBits_cons (f : Field) (fs : List Field) : layoutBits (f :: fs) = f.width.toNat + layoutBits fs := rfl

/-- A layout of legal widths that fits the bits that remain reads as its values, and one that does not fit has no record
(R138, R180). -/
theorem readRecord_eq_ite {fields : List Field} {rd : Reader}
    (hw : ∀ f ∈ fields, 1 ≤ f.width.toNat ∧ f.width.toNat ≤ 32) (habort : rd.abort = false)
    (hcur : rd.cur.toNat ≤ 8 * rd.len.toNat) :
    readRecord fields rd
      = if rd.cur.toNat + layoutBits fields ≤ 8 * rd.len.toNat then some (layoutValues fields rd) else none := by
  induction fields generalizing rd with
  | nil => exact (if_pos hcur).symm
  | cons f fs ih =>
    obtain ⟨hf, hfs⟩ := List.forall_mem_cons.1 hw
    rw [layoutBits_cons, ← Nat.add_assoc]
    by_cases hfit : rd.cur.toNat + f.width.toNat ≤ 8 * rd.len.toNat
    · have hcur' := cursor_after_take hfit
      have hrest := ih (rd := { rd with cur := BitVec.ofNat 11 (rd.cur.toNat + f.width.toNat) }) hfs habort
        (hcur'.le.trans hfit)
      rw [readRecord_succeeds (legalWidth_iff.2 hf) ((takeFails_eq_false hf.1).2 ⟨habort, hfit⟩), hrest, hcur',
        apply_ite (Option.map _)]
      rfl
    · rw [readRecord_fails ((takeFails_eq_true hf.1).2 (.inr (not_le.1 hfit))), if_neg (by omega)]

/-- Settles O22, from the record as the values of a layout that fits. -/
theorem recordExistsWhenTheLayoutFits : Obligations.RecordExistsWhenTheLayoutFits := by
  intro fields rd hw habort hcur
  rw [readRecord_eq_ite hw habort hcur]
  by_cases hfit : rd.cur.toNat + layoutBits fields ≤ 8 * rd.len.toNat
  · rw [if_pos hfit]
    refine ⟨iff_of_true rfl hfit, ?_⟩
    rintro vs ⟨⟩
    exact layoutValues_length fields rd
  · rw [if_neg hfit]
    exact ⟨iff_of_false Bool.false_ne_true hfit, nofun⟩

/-! ## The run of a field program -/

/-- The responses to the takes of a layout agree with its record: they are its values when it exists, and otherwise one of
them is no OK, the last one when every width is legal (R138, R180). -/
structure AnswersRecord (fields : List Field) (record : Option (List Word)) (out : List Response) : Prop where
  length : out.length = fields.length
  values : ∀ vs, record = some vs → out = vs.map fun v => ⟨.ok, .unknown, 0#18, 0#8, v⟩
  failure : record = none → ∃ r ∈ out, r.status ≠ .ok
  last : (∀ f ∈ fields, 1 ≤ f.width.toNat ∧ f.width.toNat ≤ 32) → record = none →
    out.getLast? = some ⟨.parseError, .unknown, 0#18, 0#8, 0#32⟩

section
variable {f : Field} {fs : List Field} {rd : Reader} {out : List Response}

/-- With the flag set no field can be taken (R138). -/
theorem readRecord_of_abort (h : rd.abort = true) : readRecord (f :: fs) rd = none :=
  readRecord_fails (by simp [takeFails, h])

/-- A field of an illegal width is turned away, and leaves no record (log entry 22). -/
theorem AnswersRecord.cons_illegal (hl : legalWidth f.width = false) (h : AnswersRecord fs (readRecord fs rd) out) :
    AnswersRecord (f :: fs) (readRecord (f :: fs) rd) (badCommandResponse :: out) := by
  rw [readRecord_illegal hl]
  refine ⟨congrArg (· + 1) h.length, nofun, fun _ => ⟨_, List.mem_cons_self, nofun⟩, fun hw _ => ?_⟩
  rw [legalWidth_iff.2 (hw f List.mem_cons_self)] at hl
  cases hl

/-- After a take that fails every take fails, so that the last one does (R138). -/
theorem AnswersRecord.cons_fails (hf : takeFails rd f.width.toNat = true)
    (h : AnswersRecord fs (readRecord fs (setAbort rd)) out) :
    AnswersRecord (f :: fs) (readRecord (f :: fs) rd) (⟨.parseError, .unknown, 0#18, 0#8, 0#32⟩ :: out) := by
  rw [readRecord_fails hf]
  refine ⟨congrArg (· + 1) h.length, nofun, fun _ => ⟨_, List.mem_cons_self, nofun⟩, fun hw _ => ?_⟩
  cases fs with
  | nil => rw [List.eq_nil_of_length_eq_zero h.length]; rfl
  | cons g gs =>
    rw [List.getLast?_cons, h.last (List.forall_mem_cons.1 hw).2 (readRecord_of_abort rfl)]
    rfl

/-- A take that succeeds answers the record's first value (R180). -/
theorem AnswersRecord.cons_succeeds (hl : legalWidth f.width = true) (hf : takeFails rd f.width.toNat = false)
    (h : AnswersRecord fs (readRecord fs { rd with cur := BitVec.ofNat 11 (rd.cur.toNat + f.width.toNat) }) out) :
    AnswersRecord (f :: fs) (readRecord (f :: fs) rd)
      (⟨.ok, .unknown, 0#18, 0#8, widenTaken f.takeForm (takenValue rd f.width.toNat) f.width.toNat⟩ :: out) := by
  rw [readRecord_succeeds hl hf]
  refine ⟨congrArg (· + 1) h.length, fun vs hvs => ?_, fun hnone => ?_, fun hw hnone => ?_⟩
  · obtain ⟨ws, hws, rfl⟩ := Option.map_eq_some_iff.1 hvs
    rw [h.values ws hws, List.map_cons]
  · obtain ⟨r, hr, hbad⟩ := h.failure (Option.map_eq_none_iff.1 hnone)
    exact ⟨r, List.mem_cons_of_mem _ hr, hbad⟩
  · rw [List.getLast?_cons, h.last (List.forall_mem_cons.1 hw).2 (Option.map_eq_none_iff.1 hnone)]
    rfl

end

/-- Running the takes of a layout answers its record over the reader as it stands (R180). -/
theorem execAll_commands_answer (fields : List Field) (s : State) :
    ∃ (t : State) (out : List Response), execAll (fields.map Field.command) s = .next t ∧
      t.rspOut = s.rspOut ++ out ∧ AnswersRecord fields (readRecord fields s.rd) out := by
  induction fields generalizing s with
  | nil => exact ⟨s, [], rfl, (List.append_nil _).symm, rfl, by rintro vs ⟨⟩; rfl, nofun, nofun⟩
  | cons f fs ih =>
    obtain ⟨t, out, hrun, hout, h⟩ := ih (takeCommand f.width f.takeForm s)
    rw [execAll_commands_cons]
    rcases takeCommand_cases f.width f.takeForm s with ⟨hl, htake⟩ | ⟨-, hf, htake⟩ | ⟨hl, hf, htake⟩ <;>
      rw [htake] at hout h
    · exact ⟨t, _, hrun, hout.trans (List.append_cons ..).symm, h.cons_illegal hl⟩
    · exact ⟨t, _, hrun, hout.trans (List.append_cons ..).symm, h.cons_fails hf⟩
    · exact ⟨t, _, hrun, hout.trans (List.append_cons ..).symm, h.cons_succeeds hl hf⟩

/-- Settles O23: BFLOADM loads the message's reader, and the takes answer its record. -/
theorem fieldProgramRunsGiveTheRecord : Obligations.FieldProgramRunsGiveTheRecord := by
  intro fields s
  obtain ⟨t, out, hrun, hout, h⟩ := execAll_commands_answer fields (loadMessageCommand s)
  have hrecord : readRecord fields (loadMessageCommand s).rd = decodeMessage fields s.msg := rfl
  rw [hrecord] at h
  refine ⟨t, _, out, (execAll_cons (exec_bfloadm s) _).trans hrun, hout.trans (List.append_cons ..).symm, rfl, h.length,
    ⟨fun hsome => ?_, fun hok => ?_⟩, h.values, h.last⟩
  · obtain ⟨vs, hvs⟩ := Option.isSome_iff_exists.1 hsome
    rw [h.values vs hvs]
    simp
  · by_contra hnone
    obtain ⟨r, hr, hbad⟩ := h.failure (Option.not_isSome_iff_eq_none.1 hnone)
    exact hbad (hok r hr)

/-! ## Taken values as bytes -/

section
variable {rd : Reader} {p : Nat}

/-- Bits that lie within byte `p`, from its bit `o` on, are that part of the byte (R131, R133). -/
theorem assembleBits_within_byte {o n : Nat} (hcur : rd.cur.toNat = 8 * p + o) (hn : o + n ≤ 8) :
    assembleBits rd n = (Memory.read rd.buf p).toNat / 2 ^ (8 - o - n) % 2 ^ n := by
  induction n with
  | zero => rw [assembleBits_zero, pow_zero, Nat.mod_one]
  | succ n ih =>
    have hbit : bitAt rd (rd.cur.toNat + n) = (Memory.read rd.buf p).toNat.testBit (8 - o - (n + 1)) := by
      have hbyte : (rd.cur.toNat + n) / 8 = p := by omega
      have hpos : 7 - (rd.cur.toNat + n) % 8 = 8 - o - (n + 1) := by omega
      rw [bitAt, hbyte, hpos, BitVec.testBit_toNat]
    have hshift : 8 - o - n = 8 - o - (n + 1) + 1 := by omega
    rw [assembleBits_succ, ih (by omega), hbit, hshift, Nat.toNat_testBit, pow_succ, ← Nat.div_div_eq_div_mul,
      pow_succ', Nat.mod_mul, Nat.add_comm]

/-- A width that is no whole number of bytes, within byte `p`, is that part of the byte (R135). -/
theorem takenValue_within_byte {o n : Nat} (hcur : rd.cur.toNat = 8 * p + o) (hn : o + n ≤ 8) (h8 : n % 8 ≠ 0) :
    takenValue rd n = (Memory.read rd.buf p).toNat / 2 ^ (8 - o - n) % 2 ^ n := by
  rw [takenValue, reorderBytes_of_not_mul h8, assembleBits_within_byte hcur hn]

/-- A width of `k` bytes from a byte boundary is the bytes from there on, the first one lowest (R134). -/
theorem takenValue_bytes (hcur : rd.cur.toNat = 8 * p) (k : Nat) :
    takenValue rd (8 * k) = byteSum (fun j => (Memory.read rd.buf (p + j)).toNat) k := by
  have hd (j : Nat) : (Memory.read rd.buf (p + j)).toNat < 256 := BitVec.isLt _
  refine Nat.eq_of_testBit_eq fun i => ?_
  by_cases hi : 8 * k ≤ i
  · have hpow : 2 ^ (8 * k) ≤ 2 ^ i := Nat.pow_le_pow_right (by decide) hi
    rw [Nat.testBit_eq_false_of_lt ((takenValue_lt rd _).trans_le hpow),
      Nat.testBit_eq_false_of_lt ((byteSum_lt hd k).trans_le hpow)]
  replace hi := not_le.1 hi
  have hj : i / 8 < k := by omega
  have hb : i % 8 < 8 := Nat.mod_lt _ (by decide)
  have hbyte : (rd.cur.toNat + (8 * (i / 8) + (7 - i % 8))) / 8 = p + i / 8 := by omega
  have hpos : 7 - (rd.cur.toNat + (8 * (i / 8) + (7 - i % 8))) % 8 = i % 8 := by omega
  rw [← Nat.div_add_mod i 8, takenValue_byte_bit (by omega) (by omega) hb, testBit_byteSum hd hj hb, bitAt, hbyte, hpos,
    BitVec.testBit_toNat]

end

/-- A sign-extended value is the two's complement of its number (R136). -/
theorem widenTaken_signed_toInt {v n : Nat} (hv : v < 2 ^ n) (hn : n ≤ 32) :
    (widenTaken .signed v n).toInt = if 2 * v < 2 ^ n then (v : Int) else v - (2 ^ n : Nat) := by
  rw [widenTaken, BitVec.toInt_signExtend_of_le hn, BitVec.toInt_eq_toNat_cond, BitVec.toNat_ofNat, Nat.mod_eq_of_lt hv]

/-! ## The layouts of an 8-byte message -/

/-- The value of the `n` bits of a message from bit `pos` on. -/
def valueAt (m : Message) (pos n : Nat) (form : TakeForm) : Word :=
  widenTaken form (takenValue ⟨m.bytes, m.len, BitVec.ofNat 11 pos, false⟩ n) n

/-- A message that is long enough for a layout has its values as the record (R180). -/
theorem decodeMessage_of_fits {fields : List Field} {m : Message}
    (hw : ∀ f ∈ fields, 1 ≤ f.width.toNat ∧ f.width.toNat ≤ 32) (hfit : layoutBits fields ≤ 8 * m.len.toNat) :
    decodeMessage fields m = some (layoutValues fields (loadedReader m.bytes m.len)) := by
  have hzero : (loadedReader m.bytes m.len).cur.toNat = 0 := rfl
  rw [decodeMessage, readRecord_eq_ite hw rfl (Nat.zero_le _), hzero, Nat.zero_add]
  exact if_pos hfit

theorem systemTime_values (m : Message) : layoutValues systemTime (loadedReader m.bytes m.len)
    = [valueAt m (8 * 0) (8 * 1) .unsigned, valueAt m (8 * 1 + 0) 4 .unsigned, valueAt m (8 * 1 + 4) 4 .unsigned,
       valueAt m (8 * 2) (8 * 2) .unsigned, valueAt m (8 * 4) (8 * 4) .unsigned] := rfl

theorem vesselHeading_values (m : Message) : layoutValues vesselHeading (loadedReader m.bytes m.len)
    = [valueAt m (8 * 0) (8 * 1) .unsigned, valueAt m (8 * 1) (8 * 2) .unsigned, valueAt m (8 * 3) (8 * 2) .signed,
       valueAt m (8 * 5) (8 * 2) .signed, valueAt m (8 * 7 + 0) 2 .unsigned] := rfl

section
variable (m : Message) {p : Nat} (hp : p < 256)
include hp

/-- Whole bytes from byte `p` on, as an unsigned number. -/
theorem valueAt_bytes_toNat {k : Nat} (hk : k ≤ 4) :
    (valueAt m (8 * p) (8 * k) .unsigned).toNat = byteSum (fun j => (Memory.read m.bytes (p + j)).toNat) k := by
  rw [valueAt, widenTaken_unsigned_toNat (takenValue_lt _ _) (by omega), takenValue_bytes]
  rw [BitVec.toNat_ofNat]
  omega

/-- Whole bytes from byte `p` on, as a signed number. -/
theorem valueAt_bytes_toInt {k : Nat} (hk : k ≤ 4) : (valueAt m (8 * p) (8 * k) .signed).toInt
    = let v := byteSum (fun j => (Memory.read m.bytes (p + j)).toNat) k
      if 2 * v < 2 ^ (8 * k) then (v : Int) else v - (2 ^ (8 * k) : Nat) := by
  rw [valueAt, widenTaken_signed_toInt (takenValue_lt _ _) (by omega), takenValue_bytes]
  rw [BitVec.toNat_ofNat]
  omega

/-- Bits within byte `p`, from its bit `o` on. -/
theorem valueAt_within_byte_toNat {o n : Nat} (hn : o + n ≤ 8) (h8 : n % 8 ≠ 0) :
    (valueAt m (8 * p + o) n .unsigned).toNat = (Memory.read m.bytes p).toNat / 2 ^ (8 - o - n) % 2 ^ n := by
  rw [valueAt, widenTaken_unsigned_toNat (takenValue_lt _ _) (by omega), takenValue_within_byte _ hn h8]
  rw [BitVec.toNat_ofNat]
  omega

end

theorem byteSum_one (digit : Nat → Nat) : byteSum digit 1 = digit 0 := by simp [byteSum]

theorem byteSum_two (digit : Nat → Nat) : byteSum digit 2 = digit 0 + 256 * digit 1 := by
  rw [byteSum_succ, byteSum_one]
  omega

theorem byteSum_four (digit : Nat → Nat) :
    byteSum digit 4 = digit 0 + 256 * digit 1 + 65536 * digit 2 + 16777216 * digit 3 := by
  rw [byteSum_succ, byteSum_succ, byteSum_two]
  omega

/-- Two bytes from byte `p` on, as a signed number (R134, R136). -/
theorem valueAt_two_bytes_toInt (m : Message) {p : Nat} (hp : p < 256) : (valueAt m (8 * p) (8 * 2) .signed).toInt
    = let v := (Memory.read m.bytes p).toNat + 256 * (Memory.read m.bytes (p + 1)).toNat
      if v < 32768 then (v : Int) else v - 65536 := by
  rw [valueAt_bytes_toInt m hp (by decide), byteSum_two]
  exact ite_congr (propext (by omega)) (fun _ => rfl) (fun _ => rfl)

/-- Settles O24: each value at its place in the message. -/
theorem systemTimeRecordReadsItsLayout : Obligations.SystemTimeRecordReadsItsLayout := by
  intro m hlen
  refine ⟨_, decodeMessage_of_fits (by decide) (by rw [hlen]; decide), ?_⟩
  have hsource : (Memory.read m.bytes 1).toNat / 16 % 16 = (Memory.read m.bytes 1).toNat / 16 :=
    Nat.mod_eq_of_lt (Nat.div_lt_of_lt_mul (Memory.read m.bytes 1).isLt)
  rw [systemTime_values, List.map_cons, List.map_cons, List.map_cons, List.map_cons, List.map_cons,
    valueAt_bytes_toNat m (by decide) (by decide), valueAt_within_byte_toNat m (by decide) (by decide) (by decide),
    valueAt_within_byte_toNat m (by decide) (by decide) (by decide), valueAt_bytes_toNat m (by decide) (by decide),
    valueAt_bytes_toNat m (by decide) (by decide), byteSum_one, byteSum_two, byteSum_four]
  simp [hsource]

/-- Settles O25: each value at its place in the message. -/
theorem vesselHeadingRecordReadsItsLayout : Obligations.VesselHeadingRecordReadsItsLayout := by
  intro m hlen
  refine ⟨_, _, _, _, _, (decodeMessage_of_fits (by decide) (by rw [hlen]; decide)).trans
    (congrArg some (vesselHeading_values m)), ?_, ?_, valueAt_two_bytes_toInt m (by decide),
    valueAt_two_bytes_toInt m (by decide), ?_⟩
  · rw [valueAt_bytes_toNat m (by decide) (by decide), byteSum_one]
  · rw [valueAt_bytes_toNat m (by decide) (by decide), byteSum_two]
  · rw [valueAt_within_byte_toNat m (by decide) (by decide) (by decide)]
    exact Nat.mod_eq_of_lt (Nat.div_lt_of_lt_mul (Memory.read m.bytes 7).isLt)

end Sys2Proof.Machine

/-! # Scales, units and labels

Each field's reading comes from its meaning; a table of the four layouts says which name has which meaning. -/

namespace Sys2Proof.Machine

/-- The fields of the four layouts. -/
def layoutFields : List Field := systemTime ++ vesselHeading ++ cogSogRapidUpdate ++ navigationData

/-! ## Scales -/

/-- The names of the angles, the speeds, the times of day and the dates (R186). -/
def angleNames : List String :=
  ["heading", "deviation", "variation", "cog", "bearing-origin-to-destination", "bearing-origin-to-waypoint"]

def speedNames : List String := ["sog", "waypoint-closing-velocity"]

def timeNames : List String := ["time-since-midnight", "eta-time"]

def dateNames : List String := ["date", "eta-date"]

/-- What a raw value is divided by for its unit, for a meaning that has one (R186). -/
def FieldMeaning.scale : FieldMeaning → Option (Nat × PhysicalUnit)
  | .angle => some (10000, .radian)
  | .speed => some (100, .metrePerSecond)
  | .timeOfDay => some (10000, .second)
  | .date => some (1, .day)
  | _ => none

/-- Which name of a layout has which scale, and which is signed (R182, R186). -/
theorem layoutFields_scales : ∀ f ∈ layoutFields,
    (f.form = .signed ↔ f.name = "deviation" ∨ f.name = "variation") ∧
    (f.name ∈ angleNames → f.meaning.scale = some (10000, .radian)) ∧
    (f.name ∈ speedNames → f.meaning.scale = some (100, .metrePerSecond)) ∧
    (f.name ∈ timeNames → f.meaning.scale = some (10000, .second)) ∧
    (f.name ∈ dateNames → f.meaning.scale = some (1, .day)) ∧
    (f.name ∉ angleNames ++ speedNames ++ timeNames ++ dateNames → f.meaning.scale = none) := by decide

section
variable (c : Config) {f : Field} (v : Word)

/-- Only a field of signed form stands for a signed integer (R136). -/
theorem Field.integer_eq_ite : f.integer v = if f.form = .signed then v.toInt else (v.toNat : Int) := by
  unfold Field.integer
  cases f.form <;> rfl

/-- A meaning with a unit gives the exact quantity in it (R186). -/
theorem Field.reading_of_scale {d : Nat} {u : PhysicalUnit} (h : f.meaning.scale = some (d, u)) :
    f.reading c v = .quantity ((f.integer v : Rat) / d) u := by
  have hquantity {q : Rat} (hq : q = (f.integer v : Rat) / d) : Reading.quantity q u = .quantity (f.integer v / d) u :=
    congrArg (Reading.quantity · u) hq
  unfold Field.reading
  cases hm : f.meaning <;> rw [hm] at h <;> cases h
  case angle | speed | timeOfDay => exact hquantity (Rat.mkRat_eq_div ..)
  case date => exact hquantity (by rw [Nat.cast_one, div_one, days])

/-- A meaning without a unit gives no quantity. -/
theorem Field.reading_ne_quantity (h : f.meaning.scale = none) (q : Rat) (u : PhysicalUnit) :
    f.reading c v ≠ .quantity q u := by
  unfold Field.reading
  cases hm : f.meaning <;> rw [hm] at h <;> cases h <;> exact Reading.noConfusion

end

/-- Settles O53: the table of the layouts, and the reading of a meaning with a unit and without one. -/
theorem everyScaledFieldHasItsUnit : Obligations.EveryScaledFieldHasItsUnit := by
  intro c f v hf
  obtain ⟨hsigned, hangle, hspeed, htime, hdate, hother⟩ := layoutFields_scales f hf
  refine ⟨(Field.integer_eq_ite v).trans (if_congr hsigned rfl rfl), fun h => Field.reading_of_scale c v (hangle h),
    fun h => Field.reading_of_scale c v (hspeed h), fun h => Field.reading_of_scale c v (htime h), fun h => ?_,
    fun h => Field.reading_ne_quantity c v (hother h)⟩
  rw [Field.reading_of_scale c v (hdate h), Nat.cast_one, div_one]

/-! ## Labels -/

/-- The labels of a meaning that is an enumeration (R187). -/
def FieldMeaning.labels : FieldMeaning → Option (List String)
  | .reference => some ["unspecified", "True", "Magnetic", "Error"]
  | .timeSource => some ["GPS", "GLONASS", "RadioStation", "LocalCesium", "LocalRubidium", "LocalCrystal"]
  | .calcType => some ["GreatCircle", "Rhumbline"]
  | _ => none

/-- An enumeration reads by the position of its labels (R185, R187). -/
theorem Field.reading_of_labels (c : Config) {f : Field} (v : Word) {labels : List String}
    (h : f.meaning.labels = some labels) : f.reading c v = .enumeration (labelOf labels v.toNat) := by
  unfold Field.reading
  cases hm : f.meaning <;> rw [hm] at h <;> cases h <;> rfl

/-- A truth value is the one that `BOOL2_MAP` gives the raw value (D32, R187). -/
theorem Field.reading_of_bool2 (c : Config) {f : Field} {v : Word} {raw : BitVec 2} (h : f.meaning = .bool2)
    (hraw : v.toNat = raw.toNat) : f.reading c v = .truth (c.bool2Map raw) := by
  have hv : v.setWidth 2 = raw := BitVec.eq_of_toNat_eq (by rw [BitVec.toNat_setWidth, hraw, Nat.mod_eq_of_lt raw.isLt])
  rw [Field.reading, h, ← hv]
  rfl

/-- Which name of a layout has which labels, and which is a truth value (R187). -/
theorem layoutFields_labels : ∀ f ∈ layoutFields,
    (f.name ∈ ["time-source", "calc-type", "reference", "cog-reference", "bearing-reference"] →
      f.meaning.labels = some (if f.name = "time-source" then
          ["GPS", "GLONASS", "RadioStation", "LocalCesium", "LocalRubidium", "LocalCrystal"]
        else if f.name = "calc-type" then ["GreatCircle", "Rhumbline"] else ["unspecified", "True", "Magnetic", "Error"])) ∧
    (f.name ∈ ["perpendicular-crossed", "arrival-circle-entered"] → f.meaning = .bool2) := by decide

/-- Settles O54: the table of the layouts, and the law of a list of labels. -/
theorem enumerationValuesAreData : Obligations.EnumerationValuesAreData := by
  intro c f v hf
  obtain ⟨hlabels, hbool⟩ := layoutFields_labels f hf
  refine ⟨fun h => ⟨fun l hl => ?_, fun hlen => ?_⟩, fun h raw hraw => Field.reading_of_bool2 c (hbool h) hraw⟩
  · rw [Field.reading_of_labels c v (hlabels h), labelOf_label hl]
  · rw [Field.reading_of_labels c v (hlabels h), labelOf_unmapped hlen]

end Sys2Proof.Machine

/-! # Fast-packet reassembly

First what an ingest leaves alone, and one equation for each branch of R201 at an 8-byte frame; then the statements, in the
order of a message: a frame that is too short, a first frame, a continuation frame. -/

namespace Sys2Proof.Machine

/-! ## What an ingest leaves alone -/

/-- A command that names a source keeps the other sources' entries, the reader and the inputs (R26, R33). -/
theorem SourceEffect.frame {sa : SourceAddr} {s t : State} (h : SourceEffect sa s t) :
    KeepsOtherSources sa s t ∧ KeepsReaderAndInputs s t := by
  cases h with
  | answers fp hfp r hr h => exact h ▸ ⟨hfp, rfl, rfl, rfl⟩
  | delivers fp hfp len m r hr hv h => exact h ▸ ⟨hfp, rfl, rfl, rfl⟩

theorem ingestCommand_frame (c : Config) (id : Ident) (k : BitVec 4) (d : Payload) (s : State) :
    KeepsOtherSources (sourceAddress id) s (ingestCommand c id k d s) ∧
      KeepsReaderAndInputs s (ingestCommand c id k d s) :=
  (ingestCommand_sourceEffect s c id k d).frame

theorem Table.find_erase_self (t : Table) (sa : SourceAddr) : Table.find (Table.erase t sa) sa = none :=
  (Table.find_erase t sa sa).trans (if_pos rfl)

theorem Table.find_set_self (t : Table) (sa : SourceAddr) (e : Entry) : Table.find (Table.set t sa e) sa = some e :=
  (Table.find_set t sa sa e).trans (if_pos rfl)

/-! ## Which branch a frame takes -/

section
variable (c : Config) (id : Ident) {d : Payload} (s : State)

theorem ingestCommand_of_first (h : d.b0.toNat % 32 = 0) :
    ingestCommand c id 8#4 d s = ingestFirst c (pgnOf id) (sourceAddress id) d s := by
  rw [ingestCommand_eight, if_pos (frameIndex_eq_zero.2 h)]

theorem ingestCommand_of_continuation (h : d.b0.toNat % 32 ≠ 0) :
    ingestCommand c id 8#4 d s = ingestContinuation c (pgnOf id) (sourceAddress id) d s := by
  rw [ingestCommand_eight, if_neg (mt frameIndex_eq_zero.1 h)]

end

theorem eq_sequenceId_iff {q : BitVec 3} {b : Byte} : q = sequenceId b ↔ q.toNat = b.toNat / 32 := by
  rw [← BitVec.toNat_inj, sequenceId_toNat]

section
variable (c : Config) (pgn : Pgn) {sa : SourceAddr} {d : Payload} {s : State}

/-- A first frame that declares at most 6 bytes (R205). -/
theorem ingestFirst_of_short (sa : SourceAddr) (s : State) (h : d.b1.toNat ≤ 6) : ingestFirst c pgn sa d s =
    ((s.setFp (Table.erase s.fp sa)).deliver pgn sa d.b1 (Memory.ofBytes (firstFrameBytes d))).respond
      ⟨.decoded, .fastPacket, pgn, sa, d.b1.setWidth 32⟩ := if_pos h

section
variable (h : 7 ≤ d.b1.toNat)
include h

/-- A longer one for a source without an entry, at a full table (R212). -/
theorem ingestFirst_of_full (hnone : Table.find s.fp sa = none) (hfull : s.fp.length = c.fpEntries) :
    ingestFirst c pgn sa d s = s.respond ⟨.capacityExceeded, .fastPacket, pgn, sa, 1#32⟩ := by
  rw [ingestFirst, if_neg (by omega), if_pos ⟨hnone, hfull⟩]

variable (hroom : Table.find s.fp sa ≠ none ∨ s.fp.length ≠ c.fpEntries)
include hroom

/-- A longer one that the table has room for, at a frame budget of 1 (R211). -/
theorem ingestFirst_of_budget_one (hone : c.fpMaxFrames = 1) : ingestFirst c pgn sa d s =
    (s.setFp (Table.erase s.fp sa)).respond ⟨.capacityExceeded, .fastPacket, pgn, sa, 0#32⟩ := by
  rw [ingestFirst, if_neg (by omega), if_neg (not_and_or.2 hroom)]
  exact if_pos hone.le

/-- A longer one that the table and the frame budget have room for (R206). -/
theorem ingestFirst_of_room (hbudget : 2 ≤ c.fpMaxFrames) : ingestFirst c pgn sa d s =
    (s.setFp (Table.set s.fp sa (newEntry pgn d))).respond
      ⟨.pending, .fastPacket, pgn, sa, pendingValue (newEntry pgn d)⟩ := by
  rw [ingestFirst, if_neg (by omega), if_neg (not_and_or.2 hroom)]
  exact if_neg (not_le.2 hbudget)

end

/-- A continuation frame that no entry matches (R208). -/
theorem ingestContinuation_of_mismatch
    (h : ∀ e, Table.find s.fp sa = some e → e.seq ≠ sequenceId d.b0 ∨ e.pgn ≠ pgn) :
    ingestContinuation c pgn sa d s = s.respond ⟨.seqMismatch, .fastPacket, pgn, sa, d.b0.setWidth 32⟩ := by
  unfold ingestContinuation
  cases he : Table.find s.fp sa with
  | none => rfl
  | some e => exact if_pos (h e he)

variable {e : Entry}

/-- A continuation frame that its source's entry matches (R207). -/
theorem ingestContinuation_of_match (he : Table.find s.fp sa = some e) (hseq : e.seq = sequenceId d.b0)
    (hpgn : e.pgn = pgn) : ingestContinuation c pgn sa d s = ingestAccepted c pgn sa (acceptFrame e d) s := by
  simp [ingestContinuation, he, hseq, hpgn]

variable (sa s)

/-- An accepted frame that completes the message (R210). -/
theorem ingestAccepted_of_complete (h : e.decl.toNat ≤ e.hw.toNat) : ingestAccepted c pgn sa e s =
    ((s.setFp (Table.erase s.fp sa)).deliver pgn sa e.decl e.data).respond
      ⟨.decoded, .fastPacket, pgn, sa, e.decl.setWidth 32⟩ := if_pos h

section
variable {c} (h : e.hw.toNat < e.decl.toNat)
include h

/-- An accepted frame that reaches the frame budget before the message is complete (R211). -/
theorem ingestAccepted_of_overBudget (hf : c.fpMaxFrames ≤ e.frames.toNat) : ingestAccepted c pgn sa e s =
    (s.setFp (Table.erase s.fp sa)).respond ⟨.capacityExceeded, .fastPacket, pgn, sa, 0#32⟩ := by
  rw [ingestAccepted, if_neg (not_le.2 h), if_pos hf]

/-- An accepted frame after which the message waits for more (R209). -/
theorem ingestAccepted_of_pending (hf : e.frames.toNat < c.fpMaxFrames) : ingestAccepted c pgn sa e s =
    (s.setFp (Table.set s.fp sa e)).respond ⟨.pending, .fastPacket, pgn, sa, pendingValue e⟩ := by
  rw [ingestAccepted, if_neg (not_le.2 h), if_neg (not_le.2 hf)]

end

end

/-! ## Frames that are too short -/

theorem ingestCommand_of_short_frame (c : Config) (id : Ident) {k : BitVec 4} (d : Payload) (s : State)
    (hk : k.toNat ≤ 7) :
    ingestCommand c id k d s = s.respond ⟨.parseError, .fastPacket, pgnOf id, sourceAddress id, 0#32⟩ := by
  have hlegal : legalCount k = true := decide_eq_true (by omega)
  have h8 : k ≠ 8#4 := by
    rintro rfl
    exact absurd hk (by decide)
  rw [ingestCommand, if_pos hlegal, ingest, if_pos h8]

/-- Settles O27: DISPATCH of a fast-packet PGN takes the way of FPINGEST, which reads the DLC first. -/
theorem shortFastPacketFrameIsAParseError : Obligations.ShortFastPacketFrameIsAParseError := by
  refine ⟨fun id k d s hk => congrArg _ (ingestCommand_of_short_frame _ id d s hk), fun c id k d s hk hfast => ?_⟩
  have hlegal : legalCount k = true := decide_eq_true (by omega)
  rw [dispatchCommand_of_fastPacket d s hlegal hfast, ingestCommand_of_short_frame c id d s hk]
  rfl

/-! ## First frames -/

theorem firstFrameBytes_getD (d : Payload) (i : Nat) :
    (firstFrameBytes d).getD i 0#8 = (payloadBytes d).getD (i + 2) 0#8 := rfl

/-- Settles O28: the delivery is the branch of R205, and the six data bytes are the payload's from index 2. -/
theorem shortMessageIsDeliveredAtOnce : Obligations.ShortMessageIsDeliveredAtOnce := by
  intro id d s hfirst hshort
  obtain ⟨hother, hrest⟩ := ingestCommand_frame Config.build id 8#4 d s
  refine ⟨_, d.b1.setWidth 32, exec_fpingest s id 8#4 d, exec_fpFirst s id d, ?_, hother, hrest, ?_, ?_,
    BitVec.toNat_setWidth_of_le (by decide)⟩
  all_goals rw [ingestCommand_of_first _ id s hfirst, ingestFirst_of_short _ _ _ s hshort]
  · exact Table.find_erase_self ..
  · refine (messageIs_deliver s _ _ d.b1 _).congr fun i _ => ?_
    rw [Memory.read_ofBytes, firstFrameBytes_getD]
  · rfl

/-- The bytes of a new entry: the six of the first frame, and 0x00 after them (R206). -/
theorem read_newEntry_payload (pgn : Pgn) (d : Payload) (i : Nat) :
    Memory.read (newEntry pgn d).data i = if i < 6 then (payloadBytes d).getD (i + 2) 0#8 else 0#8 := by
  rw [read_newEntry, firstFrameBytes_getD]
  split_ifs with hi
  · rfl
  · exact List.getD_eq_default _ _ (by rw [payloadBytes_length]; omega)

/-- Settles O29, at a frame budget of 1 and of more. -/
theorem firstFrameMakesANewEntry : Obligations.FirstFrameMakesANewEntry := by
  refine ⟨fun id d s _ => ⟨exec_fpingest s id 8#4 d, exec_fpFirst s id d⟩, fun c id d s hfirst hlong hroom => ?_⟩
  intro t
  obtain ⟨hother, hrest⟩ := ingestCommand_frame c id 8#4 d s
  have ht : t = ingestFirst c (pgnOf id) (sourceAddress id) d s := ingestCommand_of_first c id s hfirst
  obtain hone | hbudget : c.fpMaxFrames = 1 ∨ 2 ≤ c.fpMaxFrames := by unfold Config.fpMaxFrames; omega
  · rw [ingestFirst_of_budget_one c _ hlong hroom hone] at ht
    refine ⟨hother, hrest, by rw [ht]; rfl, fun _ => ?_, fun h2 => by omega⟩
    rw [ht]
    exact ⟨Table.find_erase_self .., rfl⟩
  · rw [ingestFirst_of_room c _ hlong hroom hbudget] at ht
    refine ⟨hother, hrest, by rw [ht]; rfl, fun h1 => by omega, fun _ => ?_⟩
    rw [ht]
    refine ⟨newEntry (pgnOf id) d, pendingValue (newEntry (pgnOf id) d), Table.find_set_self .., rfl,
      sequenceId_toNat d.b0, rfl, rfl, rfl, rfl, read_newEntry_payload _ d, rfl, ?_⟩
    rw [pendingValue_toNat]
    show (sequenceId d.b0).toNat * 65536 + d.b1.toNat * 256 + 6 = _
    rw [sequenceId_toNat]

/-- A source that the table finds nothing for is the source of none of its pairs. -/
theorem Table.ne_of_find_eq_none {t : Table} {sa : SourceAddr} (h : Table.find t sa = none) : ∀ p ∈ t, p.1 ≠ sa := by
  induction t with
  | nil => simp
  | cons p rest ih =>
    obtain ⟨k, e⟩ := p
    by_cases hk : k = sa
    · simp [Table.find, hk] at h
    · rw [Table.find, if_neg hk] at h
      exact List.forall_mem_cons.2 ⟨hk, ih h⟩

/-- A table in canonical form with a source that it finds nothing for: there are 256 sources, so it has room for one more. -/
theorem Table.length_lt_of_find_eq_none {t : Table} {sa : SourceAddr} (ht : Table.wf t) (h : Table.find t sa = none) :
    t.length < 256 := by
  have hnew : sa.toNat ∉ t.map fun p => p.1.toNat := by
    rw [List.mem_map]
    rintro ⟨p, hp, hpsa⟩
    exact Table.ne_of_find_eq_none h p hp (BitVec.eq_of_toNat_eq hpsa)
  have hnodup : (sa.toNat :: t.map fun p => p.1.toNat).Nodup :=
    List.nodup_cons.2 ⟨hnew, List.pairwise_map.2 (ht.imp Nat.ne_of_lt)⟩
  have hrange : (sa.toNat :: t.map fun p => p.1.toNat) ⊆ List.range 256 := by
    refine List.cons_subset.2 ⟨List.mem_range.2 sa.isLt, fun n hn => ?_⟩
    obtain ⟨p, -, rfl⟩ := List.mem_map.1 hn
    exact List.mem_range.2 p.1.isLt
  simpa [Nat.succ_le_iff] using (hnodup.subperm hrange).length_le

/-- Settles O30: 256 entries leave no source without one, and the refusal is the branch of R212. -/
theorem fullTableRefusesANewSource : Obligations.FullTableRefusesANewSource := by
  refine ⟨fun t ht hlen sa hnone => (Table.length_lt_of_find_eq_none ht hnone).ne hlen,
    fun c id d s hfirst hlong hnone hfull => ?_⟩
  rw [ingestCommand_of_first c id s hfirst, ingestFirst_of_full c _ hlong hnone hfull]
  rfl

/-! ## Continuation frames -/

/-- Settles O31: the statement's mismatch, in numbers, is the one that the ingest tests for. -/
theorem mismatchedContinuationChangesNothing : Obligations.MismatchedContinuationChangesNothing := by
  intro id d s hcont hmis
  refine ⟨d.b0.setWidth 32, BitVec.toNat_setWidth_of_le (by decide), ?_⟩
  have hmis' : ∀ e, Table.find s.fp (sourceAddress id) = some e → e.seq ≠ sequenceId d.b0 ∨ e.pgn ≠ pgnOf id :=
    fun e he => (hmis e he).imp_left (mt eq_sequenceId_iff.1)
  have hrun := (ingestCommand_of_continuation Config.build id s hcont).trans (ingestContinuation_of_mismatch _ _ hmis')
  exact List.forall_mem_cons.2 ⟨congrArg _ hrun, List.forall_mem_singleton.2 (congrArg _ hrun)⟩

theorem contFrameBytes_getD (d : Payload) (i : Nat) :
    (contFrameBytes d).getD i 0#8 = (payloadBytes d).getD (i + 1) 0#8 := rfl

/-- Where an accepted frame's payload bytes land (R207). -/
theorem read_acceptFrame_payload (e : Entry) (d : Payload) {off : Nat} (hoff : frameOffset (frameIndex d.b0) = off) (i : Nat) :
    Memory.read (acceptFrame e d).data i =
      if off ≤ i ∧ i < off + 7 then (payloadBytes d).getD (i - off + 1) 0#8 else Memory.read e.data i := by
  rw [read_acceptFrame, hoff, contFrameBytes_getD]

/-- Settles O32: the entry is what `acceptFrame` makes, and the three outcomes are the branches of R201. -/
theorem acceptedContinuationIsPlacedByItsIndex : Obligations.AcceptedContinuationIsPlacedByItsIndex := by
  refine ⟨fun id d s _ => ⟨exec_fpingest s id 8#4 d, exec_fpCont s id d⟩,
    fun c id d s e hcont he hseq hpgn => ⟨acceptFrame e d, ?_⟩⟩
  intro t off
  obtain ⟨hother, hrest⟩ := ingestCommand_frame c id 8#4 d s
  have hoff : frameOffset (frameIndex d.b0) = off := frameOffset_toNat d.b0
  have ht : t = ingestAccepted c (pgnOf id) (sourceAddress id) (acceptFrame e d) s :=
    (ingestCommand_of_continuation c id s hcont).trans
      (ingestContinuation_of_match c _ he (eq_sequenceId_iff.2 hseq) hpgn)
  refine ⟨by omega, rfl, rfl, rfl, hoff ▸ acceptFrame_hw e d, acceptFrame_frames e d, rfl,
    read_acceptFrame_payload e d hoff, hother, hrest, fun hdone => ?_, fun hmore hover => ?_, fun hmore hbudget => ?_⟩
  · rw [ht, ingestAccepted_of_complete c _ _ s hdone]
    exact ⟨e.decl.setWidth 32, Table.find_erase_self .., messageIs_deliver s _ _ e.decl _, rfl,
      BitVec.toNat_setWidth_of_le (by decide)⟩
  · rw [ht, ingestAccepted_of_overBudget _ _ s hmore hover]
    exact ⟨Table.find_erase_self .., rfl, rfl⟩
  · rw [ht, ingestAccepted_of_pending _ _ s hmore hbudget]
    exact ⟨pendingValue (acceptFrame e d), Table.find_set_self .., rfl, rfl, pendingValue_toNat _⟩

/-! ## Frames in any order -/

/-- Frames of different indices put their bytes at different offsets (R58). -/
theorem frameOffset_disjoint {k k' : BitVec 5} (hk : k ≠ 0#5) (hk' : k' ≠ 0#5) (hne : k ≠ k') :
    frameOffset k + 7 ≤ frameOffset k' ∨ frameOffset k' + 7 ≤ frameOffset k := by
  unfold frameOffset
  bv_omega

theorem Entry.eq_of_fields {e e' : Entry} (hpgn : e.pgn = e'.pgn) (hseq : e.seq = e'.seq) (hdecl : e.decl = e'.decl)
    (hhw : e.hw.toNat = e'.hw.toNat) (hdata : e.data = e'.data) (hframes : e.frames.toNat = e'.frames.toNat)
    (hage : e.age = e'.age) : e = e' := by
  cases e
  cases e'
  simp_all [BitVec.toNat_inj]

section
variable {e : Entry} {d d' : Payload} (hwf : Memory.wf e.data) (hk : frameIndex d.b0 ≠ 0#5)
  (hk' : frameIndex d'.b0 ≠ 0#5)
include hwf hk hk'

/-- Frames of different indices write different bytes, so either order gives the same bytes. -/
theorem acceptFrame_data_comm (hne : frameIndex d.b0 ≠ frameIndex d'.b0) :
    (acceptFrame (acceptFrame e d) d').data = (acceptFrame (acceptFrame e d') d).data := by
  have hdisj := frameOffset_disjoint hk hk' hne
  refine Memory.ext_of_wf (acceptFrame_data_wf d' (acceptFrame_data_wf d hwf hk) hk')
    (acceptFrame_data_wf d (acceptFrame_data_wf d' hwf hk') hk) fun i => ?_
  simp only [read_acceptFrame]
  split_ifs
  · omega
  all_goals rfl

/-- A frame of the same index writes the same bytes, so the later one's stand. -/
theorem acceptFrame_data_overwrite (heq : frameIndex d.b0 = frameIndex d'.b0) :
    (acceptFrame (acceptFrame e d) d').data = (acceptFrame e d').data := by
  refine Memory.ext_of_wf (acceptFrame_data_wf d' (acceptFrame_data_wf d hwf hk) hk') (acceptFrame_data_wf d' hwf hk')
    fun i => ?_
  simp only [read_acceptFrame, heq]
  split_ifs <;> rfl

end

/-- Settles O33: the high-water is a maximum and the count does not read the frame, so only the bytes need the indices. -/
theorem continuationFramesPlaceInAnyOrder : Obligations.ContinuationFramesPlaceInAnyOrder := by
  intro e d d' hwf hk hk'
  refine ⟨fun hne => ?_, fun heq => ⟨acceptFrame_data_overwrite hwf hk hk' heq, ?_, ?_⟩⟩
  · refine Entry.eq_of_fields rfl rfl rfl ?_ (acceptFrame_data_comm hwf hk hk' hne) ?_ rfl
    · simp only [acceptFrame_hw]
      exact max_right_comm ..
    · simp only [acceptFrame_frames]
  · refine BitVec.eq_of_toNat_eq ?_
    simp only [acceptFrame_hw, heq]
    omega
  · simp only [acceptFrame_frames]
    omega

/-! ## Declarations of more than 223 bytes -/

/-- No frame raises the high-water above the store (R25, R209). -/
theorem acceptFrame_hw_le {e : Entry} {d : Payload} (hk : frameIndex d.b0 ≠ 0#5) (h : e.hw.toNat ≤ bufBytes) :
    (acceptFrame e d).hw.toNat ≤ bufBytes := by
  rw [acceptFrame_hw]
  exact max_le h (frameOffset_bounds hk).2

/-- Settles O34: the high-water stays at most 223, below what the entry declares, so the branch of R210 is never taken. -/
theorem overlongDeclarationNeverCompletes : Obligations.OverlongDeclarationNeverCompletes := by
  intro c id d s e hcont he hdecl hhw t
  have ht : t = ingestContinuation c (pgnOf id) (sourceAddress id) d s := ingestCommand_of_continuation c id s hcont
  have hhw' : (acceptFrame e d).hw.toNat ≤ 223 := acceptFrame_hw_le (mt frameIndex_eq_zero.1 hcont) hhw
  have hmore : (acceptFrame e d).hw.toNat < (acceptFrame e d).decl.toNat := lt_of_le_of_lt hhw' hdecl
  rcases ingestContinuation_cases c (pgnOf id) (sourceAddress id) d s with ⟨-, h⟩ | ⟨e₁, he₁, -, -, h⟩ <;> rw [ht, h]
  · refine ⟨⟨_, rfl, Status.noConfusion⟩, rfl, fun e' he' => ?_⟩
    obtain rfl : e = e' := Option.some.inj (he.symm.trans he')
    exact ⟨rfl, hhw⟩
  · obtain rfl : e = e₁ := Option.some.inj (he.symm.trans he₁)
    obtain hover | hbudget := le_or_gt c.fpMaxFrames (acceptFrame e d).frames.toNat
    · rw [ingestAccepted_of_overBudget _ _ s hmore hover]
      refine ⟨⟨_, rfl, Status.noConfusion⟩, rfl, fun e' he' => ?_⟩
      cases (Table.find_erase_self ..).symm.trans he'
    · rw [ingestAccepted_of_pending _ _ s hmore hbudget]
      refine ⟨⟨_, rfl, Status.noConfusion⟩, rfl, fun e' he' => ?_⟩
      obtain rfl : acceptFrame e d = e' := Option.some.inj ((Table.find_set_self ..).symm.trans he')
      exact ⟨rfl, hhw'⟩

end Sys2Proof.Machine

/-! # Reassembly control

What FPEVICT does in its two cases, the bound on the number of entries that makes the counts of FPFLUSH and TICK exact, and
what one tick does to an entry of any age; then the statements. -/

namespace Sys2Proof.Machine

/-! ## FPEVICT -/

section
variable (s : State) {sa : SourceAddr}

/-- FPEVICT for a source that has an entry (R241). -/
theorem evictCommand_of_some {e : Entry} (he : Table.find s.fp sa = some e) : evictCommand sa s =
    (s.setFp (Table.erase s.fp sa)).respond ⟨.ok, .unknown, e.pgn, sa, 1#32⟩ := by
  rw [evictCommand, he]

/-- FPEVICT for a source that has none (R241). -/
theorem evictCommand_of_none (h : Table.find s.fp sa = none) : evictCommand sa s =
    s.respond ⟨.ok, .unknown, 0#18, sa, 0#32⟩ := by
  rw [evictCommand, h]

end

/-- Settles O35: the frame is that of a command that names a source, and the rest is read off the two cases. -/
theorem evictDiscardsOneSource : Obligations.EvictDiscardsOneSource := by
  intro sa s
  obtain ⟨hother, hrest⟩ := (evictCommand_sourceEffect s sa).frame
  refine ⟨evictCommand sa s, exec_fpevict s sa, ?_⟩
  cases hfind : Table.find s.fp sa with
  | none =>
    have ht := evictCommand_of_none s hfind
    exact ⟨ht ▸ hfind, hother, hrest, ht ▸ rfl, nofun, fun _ => ht ▸ ⟨rfl, rfl⟩⟩
  | some e =>
    have ht := evictCommand_of_some s hfind
    refine ⟨ht ▸ Table.find_erase_self .., hother, hrest, ht ▸ rfl, ?_, nofun⟩
    rintro _ ⟨⟩
    rw [ht]
    rfl

/-! ## How many entries there can be -/

/-- There are 256 sources, so a table in canonical form has at most 256 entries (R23). -/
theorem Table.length_le_of_wf {t : Table} (ht : Table.wf t) : t.length ≤ 256 := by
  cases t with
  | nil => exact Nat.zero_le _
  | cons p rest =>
    obtain ⟨hlt, hrest⟩ := List.pairwise_cons.1 ht
    have hnone : Table.find rest p.1 = none :=
      Table.find_eq_none fun q hq heq => (hlt q hq).ne' (congrArg BitVec.toNat heq)
    exact Table.length_lt_of_find_eq_none hrest hnone

/-- A count of a table's entries fits the response's value. -/
theorem entryCount_toNat {n : Nat} (h : n ≤ 256) : (BitVec.ofNat 32 n).toNat = n := by
  rw [BitVec.toNat_ofNat]
  omega

/-- Settles O36: the count of at most 256 entries is exact. -/
theorem flushDiscardsEveryEntry : Obligations.FlushDiscardsEveryEntry := fun s ht =>
  ⟨BitVec.ofNat 32 s.fp.length, entryCount_toNat (Table.length_le_of_wf ht), exec_fpflush s⟩

/-! ## TICK -/

/-- What one tick makes of an entry of any age (R243, R274). -/
theorem Table.find_tick_of_some (c : Config) {t : Table} (ht : Table.wf t) {sa : SourceAddr} {e : Entry}
    (he : Table.find t sa = some e) : Table.find (Table.tick c t) sa =
      if c.fpTimeoutTicks ≤ min (e.age.toNat + 1) 65535 then none else some (ageEntry e) := by
  rw [Table.find_tick c ht, he, Option.map_some, ← ageEntry_age]
  by_cases h : c.fpTimeoutTicks ≤ (ageEntry e).age.toNat <;> simp [isStale, h]

/-- TICK's two responses are one form: the status says whether the count is 0 (R243). -/
theorem tickCommand_eq (c : Config) {s : State} (hn : staleCount c s.fp ≤ 256) : tickCommand c s =
    (s.setFp (Table.tick c s.fp)).respond ⟨if BitVec.ofNat 32 (staleCount c s.fp) = 0#32 then .ok else .stale,
      .unknown, 0#18, 0#8, BitVec.ofNat 32 (staleCount c s.fp)⟩ := by
  have hzero : BitVec.ofNat 32 (staleCount c s.fp) = 0#32 ↔ staleCount c s.fp = 0 := by
    rw [← BitVec.toNat_inj, entryCount_toNat hn, BitVec.toNat_ofNat, Nat.zero_mod]
  unfold tickCommand
  by_cases h : staleCount c s.fp = 0
  · rw [if_pos h, if_pos (hzero.2 h), h]
  · rw [if_neg h, if_neg (mt hzero.1 h)]

/-- Settles O37: the table is the one after a tick, whose entries and removals add up to what it held. -/
theorem tickAgesEveryEntry : Obligations.TickAgesEveryEntry := by
  refine ⟨exec_tick, fun c s hwf => ?_⟩
  intro t
  have hlen := Table.length_tick c s.fp
  have hn : staleCount c s.fp ≤ 256 := (Nat.le_add_left ..).trans (hlen.le.trans (Table.length_le_of_wf hwf))
  have ht : t = _ := tickCommand_eq c hn
  have hfp : t.fp = Table.tick c s.fp := rfl
  refine ⟨fun sa hnone => ?_, fun sa e he => ?_, ⟨rfl, rfl, rfl⟩, rfl, BitVec.ofNat 32 (staleCount c s.fp), ?_, ?_⟩
  · rw [hfp, Table.find_tick c hwf, hnone]
    rfl
  · have hfind := Table.find_tick_of_some c hwf he
    exact ⟨fun hstale => hfind.trans (if_pos hstale),
      fun hfresh => ⟨ageEntry e, hfind.trans (if_neg (not_le.2 hfresh)), ageEntry_age e, rfl⟩⟩
  · rw [entryCount_toNat hn, hfp, Nat.add_comm]
    exact hlen
  · rw [ht]
    rfl

end Sys2Proof.Machine

/-! # Errors

No input stops the block; and what each error changes: first one rule about every instruction that gives one response, then
the statement. -/

namespace Sys2Proof.Machine

/-! ## No input stops the block -/

/-- Every input of the host is answered with a next state (R261). -/
theorem acceptInput_next (input : PortInput) (s : State) : ∃ t, acceptInput input s = .next t := by
  cases input with
  | word w =>
    rcases acceptWord_cases w s with ⟨-, h⟩ | ⟨-, h⟩ | ⟨i, -, h⟩
    · exact ⟨_, h⟩
    · exact ⟨_, h⟩
    · obtain ⟨t, ht⟩ := exec_next i (s.setPa [])
      exact ⟨t, h.trans ht⟩
  | rst lost => exact ⟨_, rfl⟩

/-- Settles O39: a step takes an input, or stays where there is none. -/
theorem noInputStopsTheBlock : Obligations.NoInputStopsTheBlock := by
  refine ⟨fun s => ?_, exec_next⟩
  cases hin : s.cmdIn with
  | nil => exact ⟨s, takeInput_nil hin⟩
  | cons input rest =>
    rw [step_cons hin]
    exact acceptInput_next input _

/-! ## What each error changes -/

/-- What an instruction that gives the one response `r` did, by the error that `r` tells; `take` says whether the instruction
is a take (R262). -/
inductive ErrorEffect (c : Config) (take : Bool) (s t : State) (r : Response) : Prop where
  | noError (hst : r.status = .ok ∨ r.status = .decoded ∨ r.status = .pending ∨ r.status = .unknown)
      (h : t.rspOut = s.rspOut ++ [r])
  | unchanged (hst : r.status = .badCommand ∨ r.status = .seqMismatch ∨ (r.status = .parseError ∧ take = false))
      (h : t = s.respond r)
  | failedTake (hst : r.status = .parseError) (htake : take = true) (h : t = (s.setRd (setAbort s.rd)).respond r)
  | refused (hst : r.status = .capacityExceeded) (fp : Table) (hown : Table.find fp r.sa = none)
      (hother : KeepsOtherSources r.sa s (s.setFp fp)) (h : t = (s.setFp fp).respond r)
  | timedOut (hst : r.status = .stale) (h : t = (s.setFp (Table.tick c s.fp)).respond r)

theorem ErrorEffect.rspOut {c : Config} {take : Bool} {s t : State} {r : Response} (he : ErrorEffect c take s t r) :
    t.rspOut = s.rspOut ++ [r] := by
  cases he with
  | noError _ h => exact h
  | unchanged _ h | failedTake _ _ h | refused _ _ _ _ h | timedOut _ h => exact h ▸ rfl

section
variable (c : Config) (s : State)

theorem respondBadCommand_errorEffect (take : Bool) :
    ErrorEffect c take s s.respondBadCommand badCommandResponse := .unchanged (.inl rfl) rfl

/-- A capacity refusal leaves the source without an entry: it had none, or its entry is removed (R211, R212). -/
theorem ingest_errorEffect (pgn : Pgn) (sa : SourceAddr) (k : BitVec 4) (d : Payload) :
    ∃ r, ErrorEffect c false s (ingest c pgn sa k d s) r := by
  cases ingest_effect c pgn sa k d s with
  | nothing r h hst =>
    rcases hst with hparse | hseq | ⟨hcap, rfl, hnone⟩
    · exact ⟨r, .unchanged (.inr (.inr ⟨hparse, rfl⟩)) h⟩
    · exact ⟨r, .unchanged (.inr (.inl hseq)) h⟩
    · exact ⟨r, .refused hcap s.fp hnone (keepsOtherSources_refl s _) h⟩
  | removed v h =>
    exact ⟨⟨.capacityExceeded, .fastPacket, pgn, sa, v⟩,
      .refused rfl _ (Table.find_erase_self ..) (keepsOtherSources_erase s sa) h⟩
  | delivered len m h =>
    rw [h]
    exact ⟨_, .noError (.inr (.inl rfl)) rfl⟩
  | kept e h =>
    rw [h]
    exact ⟨_, .noError (.inr (.inr (.inl rfl))) rfl⟩

theorem ingestCommand_errorEffect (id : Ident) (k : BitVec 4) (d : Payload) :
    ∃ r, ErrorEffect c false s (ingestCommand c id k d s) r := by
  unfold ingestCommand
  split
  · exact ingest_errorEffect ..
  · exact ⟨_, respondBadCommand_errorEffect ..⟩

theorem dispatchCommand_errorEffect (id : Ident) (k : BitVec 4) (d : Payload) :
    ∃ r, ErrorEffect c false s (dispatchCommand c id k d s) r := by
  unfold dispatchCommand
  split
  · split
    · exact ⟨_, .noError (.inr (.inr (.inr rfl))) rfl⟩
    · exact ⟨_, .noError (.inr (.inl rfl)) rfl⟩
    · exact ingest_errorEffect ..
  · exact ⟨_, respondBadCommand_errorEffect ..⟩

theorem evictCommand_errorEffect (sa : SourceAddr) : ∃ r, ErrorEffect c false s (evictCommand sa s) r := by
  unfold evictCommand
  split <;> exact ⟨_, .noError (.inl rfl) rfl⟩

theorem loadInlineCommand_errorEffect (k : BitVec 4) (d : Payload) :
    ∃ r, ErrorEffect c false s (loadInlineCommand k d s) r := by
  rcases loadInlineCommand_cases s k d with ⟨-, h⟩ | ⟨-, h⟩ <;> rw [h]
  · exact ⟨_, respondBadCommand_errorEffect ..⟩
  · exact ⟨_, .noError (.inl rfl) rfl⟩

theorem takeCommand_errorEffect (n : BitVec 6) (form : TakeForm) :
    ∃ r, ErrorEffect c true s (takeCommand n form s) r := by
  rcases takeCommand_cases n form s with ⟨-, h⟩ | ⟨-, -, h⟩ | ⟨-, -, h⟩ <;> rw [h]
  · exact ⟨_, respondBadCommand_errorEffect ..⟩
  · exact ⟨_, .failedTake rfl rfl rfl⟩
  · exact ⟨_, .noError (.inl rfl) rfl⟩

theorem tickCommand_errorEffect : ∃ r, ErrorEffect c false s (tickCommand c s) r := by
  unfold tickCommand
  split
  · exact ⟨_, .noError (.inl rfl) rfl⟩
  · exact ⟨_, .timedOut rfl rfl⟩

/-- TICKS with one response is one TICK (R93). -/
theorem tickTimes_errorEffect {k : Nat} (h : (tickTimes c k s).rspOut.length = s.rspOut.length + 1) :
    ∃ r, ErrorEffect c false s (tickTimes c k s) r := by
  obtain rfl : k = 1 := Nat.add_left_cancel ((tickTimes_rspOut_length c k s).symm.trans h)
  exact tickCommand_errorEffect c s

end

/-- Every instruction that gives one response changes what the response's error allows (R262). -/
theorem exec_errorEffect : ∀ {i : Instr} {s t : State}, exec i s = .next t →
    t.rspOut.length = s.rspOut.length + 1 → ∃ r, ErrorEffect Config.build (isTake i) s t r
  | .iddec _, _, _, rfl, _ | .pdu2 _, _, _, rfl, _ | .pdu1 _, _, _, rfl, _ | .fpflush, _, _, rfl, _
  | .bfloadm, _, _, rfl, _ => ⟨_, .noError (.inl rfl) rfl⟩
  | .dispatch _ _ _, _, _, rfl, _ => dispatchCommand_errorEffect ..
  | .fpingest _ _ _, _, _, rfl, _ | .fpFirst _ _, _, _, rfl, _ | .fpCont _ _, _, _, rfl, _ =>
    ingestCommand_errorEffect ..
  | .fpevict _, _, _, rfl, _ => evictCommand_errorEffect ..
  | .tick, _, _, rfl, _ => tickCommand_errorEffect ..
  | .bfloadi _ _, _, _, rfl, _ => loadInlineCommand_errorEffect ..
  | .bftakeU _, _, _, rfl, _ | .bftakeS _, _, _, rfl, _ | .bfskip _, _, _, rfl, _ => takeCommand_errorEffect ..
  | .reserved0, _, _, rfl, _ | .reservedA, _, _, rfl, _ | .reservedB, _, _, rfl, _ | .reservedC, _, _, rfl, _
  | .reservedD, _, _, rfl, _ | .reservedE, _, _, rfl, _ | .reservedF, _, _, rfl, _ =>
    ⟨_, respondBadCommand_errorEffect ..⟩
  | .ticks _, _, _, rfl, h => tickTimes_errorEffect _ _ h

/-- What one tick makes of the entry of each source, if it has one (R243). -/
theorem Table.find_tick_bind (c : Config) {t : Table} (ht : Table.wf t) (sa : SourceAddr) :
    Table.find (Table.tick c t) sa = (Table.find t sa).bind fun e =>
      if c.fpTimeoutTicks ≤ min (e.age.toNat + 1) 65535 then none else some (ageEntry e) := by
  cases he : Table.find t sa with
  | none =>
    rw [Table.find_tick c ht, he]
    rfl
  | some e => exact Table.find_tick_of_some c ht he

/-- Settles O49, by the error that the response tells. -/
theorem errorsChangeOnlyWhatTheirRuleSays : Obligations.ErrorsChangeOnlyWhatTheirRuleSays := by
  intro i s t r ht hrsp
  obtain ⟨r', he⟩ := exec_errorEffect ht (by simp [hrsp])
  obtain rfl : r = r' := List.singleton_injective (List.append_cancel_left (hrsp.symm.trans he.rspOut))
  cases he with
  | noError hst => rcases hst with hst | hst | hst | hst <;> simp [hst]
  | unchanged hst h =>
    subst h
    rcases hst with hst | hst | ⟨hst, htake⟩
    · simp [hst, State.respond]
    · simp [hst, State.respond]
    · simp [hst, htake, State.respond]
  | failedTake hst htake h =>
    subst h
    simp [hst, htake, State.respond, State.setRd, setAbort]
  | refused hst fp hown hother h =>
    subst h
    exact ⟨by simp [hst], by simp [hst], fun _ => ⟨rfl, hown, hother⟩, by simp [hst]⟩
  | timedOut hst h =>
    subst h
    exact ⟨by simp [hst], by simp [hst], by simp [hst], fun _ => ⟨rfl, Table.find_tick_bind Config.build⟩⟩

end Sys2Proof.Machine

/-! # Reset

What the step that takes a reset makes of the block and of the model's two port fields. -/

namespace Sys2Proof.Machine

/-- A reset between two words is applied to the block that has taken it from the inputs (R291). -/
theorem step_of_reset {s : State} {lost : Nat} {ins : List PortInput} (h : s.cmdIn = .rst lost :: ins) :
    step s = .next ((s.setCmdIn ins).applyReset lost) := step_cons h

/-- Reset cuts the newest responses and no other: as many as it says, or all where there are fewer (log entry 7). -/
theorem State.applyReset_cuts_newest (s : State) (lost : Nat) :
    ∃ cut, (s.applyReset lost).rspOut ++ cut = s.rspOut ∧ cut.length = min lost s.rspOut.length := by
  refine ⟨s.rspOut.drop (s.rspOut.length - lost), List.take_append_drop .., ?_⟩
  rw [List.length_drop]
  omega

/-- Settles O42: the five other fields are the reset state's or kept, and the responses are those that are not cut. -/
theorem resetClearsTheBlock : Obligations.ResetClearsTheBlock := by
  intro s lost ins hin
  have hcut := (s.setCmdIn ins).applyReset_cuts_newest lost
  exact ⟨_, step_of_reset hin, rfl, rfl, rfl, rfl, rfl, hcut⟩

end Sys2Proof.Machine
